-- ==== Sys2Proof/Word.lean ====
section
/-! DEFINITION. The two widths of the machine (spec/00_scope.md R5: XLEN_DATA = 8, XLEN_ADDR = 16) and the plainest
arithmetic on them (R8). -/

namespace Sys2Proof

/-- A register or memory byte (`XLEN_DATA`, R5). -/
abbrev Byte := BitVec 8

/-- A program counter, effective address or return address (`XLEN_ADDR`, R5). -/
abbrev Addr := BitVec 16

end Sys2Proof
end

