-- ==== Sys2Proof/Machine/Memory.lean ====
section
/-! DEFINITION. The memory `M` (spec/10_state.md R29, spec/20_memory.md): 65536 bytes, held as a list of (address, byte) pairs in
one canonical form, addresses strictly rising and no entry equal to what an unlisted address reads as. -/

namespace Sys2Proof.Machine

/-- The contents of `M`. -/
abbrev Memory := List Host.Cell

/-- `MEM_SIZE` (spec/00_scope.md R5). -/
def memSize : Nat := 65536

/-- What an address reads as that nothing has written: memory is all zero at power-on (spec/10_state.md R40). -/
def unlistedByte : Byte := 0

/-- The byte at an address. -/
def memoryRead : Memory → Nat → Byte
  | [], _ => unlistedByte
  | (b, v) :: m, a => if a = b then v else memoryRead m a

/-- The entries but those of one address. -/
def memoryErase (m : Memory) (a : Nat) : Memory := m.filter (fun c => c.1 != a)

/-- Put an entry before the first one of a greater address. -/
def memoryInsert : Memory → Nat → Byte → Memory
  | [], a, v => [(a, v)]
  | (b, w) :: m, a, v => if a < b then (a, v) :: (b, w) :: m else (b, w) :: memoryInsert m a v

/-- Set the byte at an address. Writing what an unlisted address reads as removes the entry. -/
def memoryWrite (m : Memory) (a : Nat) (v : Byte) : Memory :=
  if v = unlistedByte then memoryErase m a else memoryInsert (memoryErase m a) a v

/-- The canonical form from an address on: addresses rise from `lo`, stay inside the memory, and no entry is redundant. -/
def memoryWfFrom : Nat → Memory → Bool
  | _, [] => true
  | lo, (a, v) :: m => decide (lo ≤ a) && decide (a < memSize) && decide (v ≠ unlistedByte) && memoryWfFrom (a + 1) m

/-- The canonical form. -/
def Memory.wf (m : Memory) : Bool := memoryWfFrom 0 m

end Sys2Proof.Machine
end

