-- ==== Sys2Proof/Config.lean ====
section
/-! DEFINITION. What is fixed for a run and is not the core's own state: the opcode table's shape, the resolver's modes, and
the parameters of spec/00_scope.md R5 that the spec leaves open for the model to take as arguments
(spec/92_eei_decisions.md, "Parameters left OPEN"). The VALUES stand in Sys2Proof/Decode.lean (the opcode table) and in
Sys2Proof/Machine/Params.lean (the others). -/

namespace Sys2Proof

/-- The operations the opcode table names (spec/30_encoding.md R74), one per row, in the table's order. -/
inductive Opcode where
  | ldaImm
  | ldxImm
  | ldyImm
  | ldaZp
  | ldaAbs
  | ldxZp
  | ldxAbs
  | ldyZp
  | ldyAbs
  | staZp
  | staAbs
  | stxZp
  | stxAbs
  | styZp
  | styAbs
  | stzZp
  | inx
  | iny
  | incZp
  | adcImm
  | cmpImm
  | beq
  | bne
  | bcs
  | bcc
  | jmpAbs
  | jsrAbs
  | rts
  | tax
  | tay
  | txa
  | tya
  | tsx
  | txs
  deriving DecidableEq, Repr

/-- The five instruction formats (R71). -/
inductive Format where
  | imp
  | imm
  | zp
  | abs
  | rel
  deriving DecidableEq, Repr

/-- The resolver's seven addressing modes, in the order of the mode selector (R78, spec/40_resolver.md R90). -/
inductive Mode where
  | immediate
  | zeroPage
  | absolute
  | zeroPageX
  | absoluteX
  | zeroPageY
  | absoluteY
  deriving DecidableEq, Repr

/-- One row of the opcode table: the whole opcode byte, never a bit field of it (R73, R80), and the operation it selects. -/
structure OpcodeRow where
  byte : Byte
  op   : Opcode
  deriving DecidableEq, Repr

/-- `OPCODES` (R5): the table is a configuration value, so that another assignment of bytes changes the table and nothing
else (spec/30_encoding.md, "Read this first"). -/
abbrev OpcodeTable := List OpcodeRow

/-- `BRANCH_BASE` (R5, decision D8): what a taken branch adds its offset to. -/
inductive BranchBase where
  /-- The address of the next instruction, pc0 + 2: the spec's choice. -/
  | nextInstruction
  /-- The operand's own address, pc0 + 1: the reading D8 records and rejects. -/
  | operandByte
  deriving DecidableEq, Repr

/-- `TOP_POLICY` (R5, spec/20_memory.md R63, decision D15): what PC arithmetic past 0xFFFF does. -/
inductive TopPolicy where
  /-- Modulo 65536: the default. -/
  | wrap
  /-- The step is refused by a fault of the model's own (spec/93_implementation_defined.md U1). -/
  | fault
  deriving DecidableEq, Repr

/-- The parameters of a machine, fixed for a run (R5, spec/10_state.md R36). -/
structure Config where
  /-- `TRAP_OUT`: the call target that performs host output. -/
  trapOut    : Addr
  /-- `TRAP_IN`: the call target that performs host input. -/
  trapIn     : Addr
  branchBase : BranchBase
  topPolicy  : TopPolicy
  opcodes    : OpcodeTable
  deriving DecidableEq, Repr

end Sys2Proof
end

