-- ==== Sys2Proof/Syntax.lean ====
section
/-! DEFINITION. The instructions: one constructor per row of spec/opcode_table.json, its arguments the operand bytes of the
row's format in memory order (spec/30_encoding.md R71). -/

namespace Sys2Proof

/-- An instruction with its operand bytes: `imm8` an unsigned value, `zp8` the low byte of a page-zero address, `addrLo` and
`addrHi` bits 7:0 and 15:8 of an address, `off8` an unsigned forward displacement (R71, R72). -/
inductive Instr where
  /-- `LDA #imm` (R131). -/
  | ldaImm (imm8 : Byte)
  /-- `LDX #imm` (R132). -/
  | ldxImm (imm8 : Byte)
  /-- `LDY #imm` (R133). -/
  | ldyImm (imm8 : Byte)
  /-- `LDA zp` (R134). -/
  | ldaZp (zp8 : Byte)
  /-- `LDA abs` (R135). -/
  | ldaAbs (addrLo addrHi : Byte)
  /-- `LDX zp` (R136). -/
  | ldxZp (zp8 : Byte)
  /-- `LDX abs` (R137). -/
  | ldxAbs (addrLo addrHi : Byte)
  /-- `LDY zp` (R138). -/
  | ldyZp (zp8 : Byte)
  /-- `LDY abs` (R139). -/
  | ldyAbs (addrLo addrHi : Byte)
  /-- `STA zp` (R140). -/
  | staZp (zp8 : Byte)
  /-- `STA abs` (R141). -/
  | staAbs (addrLo addrHi : Byte)
  /-- `STX zp` (R142). -/
  | stxZp (zp8 : Byte)
  /-- `STX abs` (R143). -/
  | stxAbs (addrLo addrHi : Byte)
  /-- `STY zp` (R144). -/
  | styZp (zp8 : Byte)
  /-- `STY abs` (R145). -/
  | styAbs (addrLo addrHi : Byte)
  /-- `STZ zp` (R146). -/
  | stzZp (zp8 : Byte)
  /-- `INX` (R160). -/
  | inx
  /-- `INY` (R161). -/
  | iny
  /-- `INC zp` (R162). -/
  | incZp (zp8 : Byte)
  /-- `ADC #imm` (R163). -/
  | adcImm (imm8 : Byte)
  /-- `CMP #imm` (R164). -/
  | cmpImm (imm8 : Byte)
  /-- `BEQ rel` (R171). -/
  | beq (off8 : Byte)
  /-- `BNE rel` (R172). -/
  | bne (off8 : Byte)
  /-- `BCS rel` (R173). -/
  | bcs (off8 : Byte)
  /-- `BCC rel` (R174). -/
  | bcc (off8 : Byte)
  /-- `JMP abs` (R175). -/
  | jmpAbs (addrLo addrHi : Byte)
  /-- `JSR abs` (R182). -/
  | jsrAbs (addrLo addrHi : Byte)
  /-- `RTS` (R183). -/
  | rts
  /-- `TAX` (R200). -/
  | tax
  /-- `TAY` (R201). -/
  | tay
  /-- `TXA` (R202). -/
  | txa
  /-- `TYA` (R203). -/
  | tya
  /-- `TSX` (R204). -/
  | tsx
  /-- `TXS` (R205). -/
  | txs
  deriving DecidableEq, Repr

end Sys2Proof
end

