-- ==== Sys2Proof/WellFormed.lean ====
section
/-! DEFINITION. What has to hold of an instruction and of a machine's parameters. Operand bytes are never checked, every value
is legal (spec/30_encoding.md R77), so an instruction is ill-formed only where a machine's opcode table has no byte for it;
the parameters have the checks of R74, R76 (one meaning a byte) and spec/47_host_io.md R210 (the trap addresses differ). -/

namespace Sys2Proof

/-- The operation an instruction is a case of: the opcode byte alone fixes it (R70, R73). -/
def Instr.opcode : Instr → Opcode
  | .ldaImm _ => .ldaImm
  | .ldxImm _ => .ldxImm
  | .ldyImm _ => .ldyImm
  | .ldaZp _ => .ldaZp
  | .ldaAbs _ _ => .ldaAbs
  | .ldxZp _ => .ldxZp
  | .ldxAbs _ _ => .ldxAbs
  | .ldyZp _ => .ldyZp
  | .ldyAbs _ _ => .ldyAbs
  | .staZp _ => .staZp
  | .staAbs _ _ => .staAbs
  | .stxZp _ => .stxZp
  | .stxAbs _ _ => .stxAbs
  | .styZp _ => .styZp
  | .styAbs _ _ => .styAbs
  | .stzZp _ => .stzZp
  | .inx => .inx
  | .iny => .iny
  | .incZp _ => .incZp
  | .adcImm _ => .adcImm
  | .cmpImm _ => .cmpImm
  | .beq _ => .beq
  | .bne _ => .bne
  | .bcs _ => .bcs
  | .bcc _ => .bcc
  | .jmpAbs _ _ => .jmpAbs
  | .jsrAbs _ _ => .jsrAbs
  | .rts => .rts
  | .tax => .tax
  | .tay => .tay
  | .txa => .txa
  | .tya => .tya
  | .tsx => .tsx
  | .txs => .txs

/-- An instruction is well formed for a table that has a row for it. -/
def Instr.wellFormed (t : OpcodeTable) (i : Instr) : Bool := t.any (fun r => r.op == i.opcode)

/-- No byte selects two operations (R73: the byte alone selects the operation). -/
def OpcodeTable.bytesDistinct : OpcodeTable → Bool
  | [] => true
  | r :: t => t.all (fun q => q.byte != r.byte) && OpcodeTable.bytesDistinct t

/-- No operation has two bytes (R74: one opcode per row). -/
def OpcodeTable.opsDistinct : OpcodeTable → Bool
  | [] => true
  | r :: t => t.all (fun q => q.op != r.op) && OpcodeTable.opsDistinct t

/-- A table that can be decoded and encoded without doubt. -/
def OpcodeTable.wellFormed (t : OpcodeTable) : Bool := t.bytesDistinct && t.opsDistinct

/-- Parameters the spec allows: the two trap addresses differ (R210) and the table is in order. -/
def Config.wellFormed (c : Config) : Bool := c.trapOut != c.trapIn && c.opcodes.wellFormed

end Sys2Proof
end

