-- ==== Sys2Proof/Decode.lean ====
section
/-! DEFINITION. Decoding and encoding (spec/30_encoding.md). A decoder is: read byte 0; find the row whose byte equals it; if
none, `UnknownOpcode`; otherwise read the format's operand bytes (R80). Decoding looks at nothing but the bytes and the table
(R73). The encoder stands after the decoder and reads the same table. -/

namespace Sys2Proof

/-- The opcode table of R74. The operations are the source's; the byte values are decision D3 (notes/assumptions/1.md). -/
def opcodeTable : OpcodeTable :=
    [ { byte := 0xA9, op := .ldaImm },
      { byte := 0xA2, op := .ldxImm },
      { byte := 0xA0, op := .ldyImm },
      { byte := 0xA5, op := .ldaZp },
      { byte := 0xAD, op := .ldaAbs },
      { byte := 0xA6, op := .ldxZp },
      { byte := 0xAE, op := .ldxAbs },
      { byte := 0xA4, op := .ldyZp },
      { byte := 0xAC, op := .ldyAbs } ]
  ++ [ { byte := 0x85, op := .staZp },
      { byte := 0x8D, op := .staAbs },
      { byte := 0x86, op := .stxZp },
      { byte := 0x8E, op := .stxAbs },
      { byte := 0x84, op := .styZp },
      { byte := 0x8C, op := .styAbs },
      { byte := 0x64, op := .stzZp } ]
  ++ [ { byte := 0xE8, op := .inx },
      { byte := 0xC8, op := .iny },
      { byte := 0xE6, op := .incZp },
      { byte := 0x69, op := .adcImm },
      { byte := 0xC9, op := .cmpImm },
      { byte := 0xF0, op := .beq },
      { byte := 0xD0, op := .bne },
      { byte := 0xB0, op := .bcs },
      { byte := 0x90, op := .bcc } ]
  ++ [ { byte := 0x4C, op := .jmpAbs },
      { byte := 0x20, op := .jsrAbs },
      { byte := 0x60, op := .rts },
      { byte := 0xAA, op := .tax },
      { byte := 0xA8, op := .tay },
      { byte := 0x8A, op := .txa },
      { byte := 0x98, op := .tya },
      { byte := 0xBA, op := .tsx },
      { byte := 0x9A, op := .txs } ]

/-- The format column of R74. -/
def Opcode.format : Opcode → Format
  | .ldaImm | .ldxImm | .ldyImm | .adcImm | .cmpImm => .imm
  | .ldaZp | .ldxZp | .ldyZp | .staZp | .stxZp | .styZp | .stzZp | .incZp => .zp
  | .ldaAbs | .ldxAbs | .ldyAbs | .staAbs | .stxAbs | .styAbs | .jmpAbs | .jsrAbs => .abs
  | .beq | .bne | .bcs | .bcc => .rel
  | .inx | .iny | .rts | .tax | .tay | .txa | .tya | .tsx | .txs => .imp

/-- The mode column of R74 (spec/40_resolver.md R99): the resolver mode the execute phase uses, if any. -/
def Opcode.mode : Opcode → Option Mode
  | .ldaImm | .ldxImm | .ldyImm | .adcImm | .cmpImm => some .immediate
  | .ldaZp | .ldxZp | .ldyZp | .staZp | .stxZp | .styZp | .stzZp | .incZp => some .zeroPage
  | .ldaAbs | .ldxAbs | .ldyAbs | .staAbs | .stxAbs | .styAbs | .jmpAbs | .jsrAbs => some .absolute
  | .inx | .iny | .beq | .bne | .bcs | .bcc | .rts | .tax | .tay | .txa | .tya | .tsx | .txs => none

/-- How many operand bytes follow the opcode byte (R70, R71): the operand width of spec/00_scope.md R12. -/
def Format.operandWidth : Format → Nat
  | .imp => 0
  | .imm | .zp | .rel => 1
  | .abs => 2

/-- The row a byte selects: the first whose byte equals it. -/
def lookupOpcode (t : OpcodeTable) (b : Byte) : Option Opcode := (t.find? (fun r => r.byte == b)).map OpcodeRow.op

/-- The byte the table gives an operation. -/
def byteOf (t : OpcodeTable) (op : Opcode) : Option Byte := (t.find? (fun r => r.op == op)).map OpcodeRow.byte

/-- The operand bytes of an instruction, in memory order (R71). -/
def operandBytes : Instr → List Byte
  | .ldaImm imm8 | .ldxImm imm8 | .ldyImm imm8 | .adcImm imm8 | .cmpImm imm8 => [imm8]
  | .ldaZp zp8 | .ldxZp zp8 | .ldyZp zp8 | .staZp zp8 | .stxZp zp8 | .styZp zp8 | .stzZp zp8 | .incZp zp8 => [zp8]
  | .beq off8 | .bne off8 | .bcs off8 | .bcc off8 => [off8]
  | .ldaAbs addrLo addrHi | .ldxAbs addrLo addrHi | .ldyAbs addrLo addrHi | .staAbs addrLo addrHi | .stxAbs addrLo addrHi | .styAbs addrLo addrHi | .jmpAbs addrLo addrHi | .jsrAbs addrLo addrHi => [addrLo, addrHi]
  | .inx | .iny | .rts | .tax | .tay | .txa | .tya | .tsx | .txs => []

/-- The instruction of an operation and its operand bytes; a byte the format lacks is not looked at. -/
def instrOf (op : Opcode) (b1 b2 : Byte) : Instr :=
  match op with
  | .ldaImm => .ldaImm b1
  | .ldxImm => .ldxImm b1
  | .ldyImm => .ldyImm b1
  | .ldaZp => .ldaZp b1
  | .ldaAbs => .ldaAbs b1 b2
  | .ldxZp => .ldxZp b1
  | .ldxAbs => .ldxAbs b1 b2
  | .ldyZp => .ldyZp b1
  | .ldyAbs => .ldyAbs b1 b2
  | .staZp => .staZp b1
  | .staAbs => .staAbs b1 b2
  | .stxZp => .stxZp b1
  | .stxAbs => .stxAbs b1 b2
  | .styZp => .styZp b1
  | .styAbs => .styAbs b1 b2
  | .stzZp => .stzZp b1
  | .inx => .inx
  | .iny => .iny
  | .incZp => .incZp b1
  | .adcImm => .adcImm b1
  | .cmpImm => .cmpImm b1
  | .beq => .beq b1
  | .bne => .bne b1
  | .bcs => .bcs b1
  | .bcc => .bcc b1
  | .jmpAbs => .jmpAbs b1 b2
  | .jsrAbs => .jsrAbs b1 b2
  | .rts => .rts
  | .tax => .tax
  | .tay => .tay
  | .txa => .txa
  | .tya => .tya
  | .tsx => .tsx
  | .txs => .txs

/-- Why bytes are not an instruction. -/
inductive DecodeError where
  /-- The opcode byte is in no row of the table (R76). Safe: the machine raises its own fatal condition for it. -/
  | unknownOpcode (b : Byte)
  /-- The list ends before the instruction does. Safe: a step always hands the decoder three bytes, so none raises it. -/
  | truncated
  deriving DecidableEq, Repr

/-- Decode the instruction at the front of a list of bytes, and what is left after it (R80). -/
def decodeWith (t : OpcodeTable) : List Byte → Except DecodeError (Instr × List Byte)
  | [] => .error .truncated
  | b :: rest =>
    match lookupOpcode t b with
    | none => .error (.unknownOpcode b)
    | some op =>
      match op.format.operandWidth, rest with
      | 0, r => .ok (instrOf op 0 0, r)
      | 1, b1 :: r => .ok (instrOf op b1 0, r)
      | 2, b1 :: b2 :: r => .ok (instrOf op b1 b2, r)
      | _, _ => .error .truncated

/-- Decode by the table of R74. -/
def decode (bytes : List Byte) : Except DecodeError (Instr × List Byte) := decodeWith opcodeTable bytes

/-- The bytes of an instruction by a table, where the table has a byte for it (R71). -/
def encodeWith (t : OpcodeTable) (i : Instr) : Option (List Byte) :=
  (byteOf t i.opcode).map (fun b => b :: operandBytes i)

/-- The bytes of an instruction by the table of R74, which has a row for every instruction. -/
def encode (i : Instr) : List Byte := (encodeWith opcodeTable i).getD []

/-- Byte `k` of an instruction's bits numbered as the opcode table numbers them: bit 0 is the least significant bit of byte 0,
and every bit at or above `nbits` is zero. -/
def wordByte (nbits w k : Nat) : Byte := BitVec.ofNat 8 (w % 2 ^ nbits / 256 ^ k)

/-- The bytes of the longest instruction, three, laid out in memory order. -/
def wordBytes (nbits w : Nat) : List Byte := [wordByte nbits w 0, wordByte nbits w 1, wordByte nbits w 2]

/-- What the decoder reads from an instruction's bits (the host's view of `decode`). -/
def decodeTableWord (nbits w : Nat) : Option Instr :=
  match decode (wordBytes nbits w) with
  | .ok (i, _) => some i
  | .error _ => none

end Sys2Proof
end

