-- ==== Sys2Proof/Machine/Params.lean ====
section
/-! DEFINITION. The values of the machine's parameters (spec/00_scope.md R5). They are decisions of spec/92_eei_decisions.md,
not the source's words, so they stand here where a later repair may mend them; every statement that can be is made for every
value of them (they are the field `cfg` of the state). -/

namespace Sys2Proof.Machine

/-- `TRAP_OUT` (decision D9, notes/assumptions/2.md). -/
def trapOutDefault : Addr := 0x0020

/-- `TRAP_IN` (decision D9, notes/assumptions/2.md). -/
def trapInDefault : Addr := 0x0023

/-- The machine's parameters: `BRANCH_BASE` by D8 (notes/assumptions/3.md), `TOP_POLICY` by D15 (notes/assumptions/4.md),
`OPCODES` by D3 (notes/assumptions/1.md). -/
def params : Config where
  trapOut := trapOutDefault
  trapIn := trapInDefault
  branchBase := .nextInstruction
  topPolicy := .wrap
  opcodes := opcodeTable

end Sys2Proof.Machine
end

