-- ==== Sys2Proof/Machine/State.lean ====
section
/-! DEFINITION. The state of the machine (spec/10_state.md), the reasons a step can stop, and the state after reset. -/

namespace Sys2Proof.Machine

/-- The dispatcher's phases (spec/41_dispatcher.md R110). A step is one iteration, so between steps the phase is `fetch`,
`ioWait` or `halted`; `decode` and `execute` stand inside a step. -/
inductive Phase where
  | fetch
  | decode
  | execute
  | ioWait
  | halted
  deriving DecidableEq, Repr

/-- The four fatal conditions, each with its `info` (spec/60_exceptions.md R230). -/
inductive Fatal where
  /-- The fetched byte is not in the opcode table; `info` is the byte (R231). -/
  | unknownOpcode (b : Byte)
  /-- The resolver's selector is not one of the seven; `info` is the selector (R232). -/
  | invalidAddressingMode (sel : BitVec 3)
  /-- A push found `CSP = 0` (R233). -/
  | stackOverflow
  /-- A pop found `CSP = 255` (R234). -/
  | stackUnderflow
  deriving DecidableEq, Repr

/-- The call/return stack's storage: 256 slots of 16 bits (`CS_SLOTS`, R30). -/
abbrev CallStack := Vector Addr 256

/-- Everything the spec gives the machine (spec/10_state.md section 1), its two character channels (R35), and its parameters
(notes/assumptions/10.md). -/
structure State where
  /-- `A`, the accumulator (R20). -/
  a      : Byte
  /-- `X` (R21). -/
  x      : Byte
  /-- `Y` (R22). -/
  y      : Byte
  /-- `SP`, a plain data register that addresses nothing (R24). -/
  sp     : Byte
  /-- `P`, the status register: bit 0 Zero, bit 1 Carry, bits 7:2 storage (R25 to R28). -/
  p      : Byte
  /-- `PC` (R23). -/
  pc     : Addr
  /-- `M` (R29). -/
  mem    : Memory
  /-- `CS[0..255]` (R30). -/
  cs     : CallStack
  /-- `CSP`, the next free slot; 255 when the stack is empty (R31). -/
  csp    : Byte
  /-- `RUN` (R33). -/
  run    : Bool
  /-- `FAULT`; `none` is the kind None (R33). -/
  fault  : Option Fatal
  /-- The dispatcher phase (R34). -/
  phase  : Phase
  /-- `OUT`, the bytes handed to the host, oldest first (R35). -/
  output : List Byte
  /-- `IN`, the bytes the host has ready and the core has not consumed, first one first (R35). -/
  input  : List Byte
  /-- The parameters, fixed for a run (R36); the model's own field. -/
  cfg    : Config
  deriving DecidableEq, Repr

/-- Why a step has no next state. -/
inductive Fault where
  /-- Raised by `step` alone, on a state whose `RUN` is 0: no instruction is fetched any more (spec/41_dispatcher.md R118), and
  the host is shown the fault record (spec/60_exceptions.md R236). Safe: the machine does nothing either. -/
  | halted (report : Option Fatal)
  /-- Raised where `PC` arithmetic passes 0xFFFF and `TOP_POLICY` is `fault` (spec/20_memory.md R63); not one of the four fatal
  conditions. Safe: the model stops where the source leaves the behaviour undefined. -/
  | pastTop
  deriving DecidableEq, Repr

/-- Why an instruction has no meaning. -/
inductive Refusal where
  /-- Raised by an arm of `exec` whose instruction has no meaning yet; no arm is such. Safe. -/
  | notModelled (mnemonic : String)
  deriving DecidableEq, Repr

/-- The result of a step or a meaning. -/
abbrev Result := Host.Outcome State Fault Refusal

/-- After power-on reset, before the loader (R38 to R41): the reset values of R38, an empty call stack (R39), zero memory (R40),
running, no fault, phase Fetch, `OUT` empty (R41). The slots of `CS` have no value in the spec: zero is this model's
(notes/assumptions/5.md). `IN` is the host's to fill: empty here (notes/assumptions/8.md). -/
def State.reset : State where
  a := 0x00
  x := 0x00
  y := 0x00
  sp := 0xFF
  p := 0x00
  pc := 0x0000
  mem := []
  cs := Vector.replicate 256 0x0000
  csp := 255
  run := true
  fault := none
  phase := .fetch
  output := []
  input := []
  cfg := params

end Sys2Proof.Machine
end

