-- ==== Sys2Proof/Machine/Ops.lean ====
section
/-! DEFINITION. The named operations over registers, memory, `PC` and the call stack, and the one operation that takes a fatal
condition (spec/60_exceptions.md R235). -/

namespace Sys2Proof.Machine

/-- How an operation inside a step ends: it goes on with a value, or a fatal condition has halted the core, or the model's own
fault stops it. -/
inductive Flow (α : Type) where
  | ok (v : α) (s : State)
  | halt (s : State)
  | stop (f : Fault)
  deriving DecidableEq, Repr

/-- Go on with the rest of the step where the operation did; a halt or a stop leaves the rest undone (R235 (1)). -/
def Flow.andThen {α : Type} (m : Flow α) (k : α → State → Result) : Result :=
  match m with
  | .ok v s => k v s
  | .halt s => .next s
  | .stop f => .fault f

/-! ## Registers -/

/-- `A <- v`. -/
def State.setA (s : State) (v : Byte) : State := { s with a := v }

/-- `X <- v`. -/
def State.setX (s : State) (v : Byte) : State := { s with x := v }

/-- `Y <- v`. -/
def State.setY (s : State) (v : Byte) : State := { s with y := v }

/-- `SP <- v`. -/
def State.setSp (s : State) (v : Byte) : State := { s with sp := v }

/-- `P <- v`; the core itself only ever writes bit 0 (`setZero`). -/
def State.setP (s : State) (v : Byte) : State := { s with p := v }

/-- `PC <- v`. -/
def State.setPc (s : State) (v : Addr) : State := { s with pc := v }

/-- The dispatcher enters a phase. -/
def State.setPhase (s : State) (ph : Phase) : State := { s with phase := ph }

/-- The call stack's storage and pointer. -/
def State.setCallStack (s : State) (cs : CallStack) (csp : Byte) : State := { s with cs := cs, csp := csp }

/-- `OUT` becomes `bs`. -/
def State.setOutput (s : State) (bs : List Byte) : State := { s with output := bs }

/-- `IN` becomes `bs`. -/
def State.setInput (s : State) (bs : List Byte) : State := { s with input := bs }

/-! ## Memory (spec/20_memory.md) -/

/-- `MemRead(addr, 1)` (R51): every address is readable, and a read changes nothing. -/
def State.memRead (s : State) (ea : Addr) : Byte := memoryRead s.mem ea.toNat

/-- `MemWrite(addr, 1, v)` (R52): every address is writable, and no address has a side effect (R53). -/
def State.memWrite (s : State) (ea : Addr) (v : Byte) : State := { s with mem := memoryWrite s.mem ea.toNat v }

/-! ## The program counter (R63) -/

/-- `PC <- base +16 n`. Past 0xFFFF the sum wraps under `TOP_POLICY = wrap`; under `fault` the step is refused
(spec/93_implementation_defined.md U1). -/
def setPcTo (base : Addr) (n : Nat) (s : State) : Flow Unit :=
  if s.cfg.topPolicy = .fault ∧ 0xFFFF < base.toNat + n then .stop .pastTop
  else .ok () (s.setPc (base + BitVec.ofNat 16 n))

/-- `PC <- PC +16 n`: step over `n` bytes of the instruction. -/
def advancePc (n : Nat) (s : State) : Flow Unit := setPcTo s.pc n s

/-! ## Fatal conditions and reset -/

/-- `raise <Fatal>(info)` (spec/60_exceptions.md R235): the fault record is written, the run latch cleared, the dispatcher
enters Halted. Nothing is saved and control goes nowhere. -/
def raise (f : Fatal) (s : State) : State := { s with fault := some f, run := false, phase := .halted }

/-- There is no return from a fatal condition (R237): only reset leaves Halted. The reset input, at any time
(spec/70_reset_and_hazards.md R260, spec/10_state.md R38, R39, R41): registers, flags, call-stack pointer, run latch, fault record,
phase and `OUT`. `M` survives (R261); the slots of `CS` and the bytes of `IN` are left as they are (notes/assumptions/9.md). -/
def resetInput (s : State) : State :=
  { s with
    a := 0x00, x := 0x00, y := 0x00, sp := 0xFF, p := 0x00, pc := 0x0000
    csp := 255, run := true, fault := none, phase := .fetch, output := [] }

/-! ## The end of a step -/

/-- The instruction completes and the dispatcher returns to Fetch (spec/41_dispatcher.md R113). -/
def complete (s : State) : Result := .next (s.setPhase .fetch)

/-! ## The call stack (spec/45_call_return.md) -/

/-- `CS[k]`. -/
def slotAt (cs : CallStack) (k : Byte) : Addr := cs[k.toNat]'k.isLt

/-- `CS[k] <- v`. -/
def setSlot (cs : CallStack) (k : Byte) (v : Addr) : CallStack := cs.set k.toNat v k.isLt

/-- `push(address)` (R180): the check comes first, then the slot `CSP` names is written and `CSP` goes down by one. -/
def push (ret : Addr) (s : State) : Flow Unit :=
  if s.csp = 0 then .halt (raise .stackOverflow s)
  else .ok () (s.setCallStack (setSlot s.cs s.csp ret) (s.csp - 1))

/-- `pop()` (R181): the check comes first, then `CSP` goes up by one and the slot it names is read and kept. -/
def pop (s : State) : Flow Addr :=
  if s.csp = 255 then .halt (raise .stackUnderflow s)
  else .ok (slotAt s.cs (s.csp + 1)) (s.setCallStack s.cs (s.csp + 1))

/-- `PC <- pop()`, and the step is complete: the return (R183) and the implicit return of a trapped call
(spec/47_host_io.md R214). -/
def popToPc (s : State) : Result := (pop s).andThen fun ret t => complete (t.setPc ret)

end Sys2Proof.Machine
end

