-- ==== Sys2Proof/Machine/Flags.lean ====
section
/-! DEFINITION. The status register's flags (spec/10_state.md R25 to R28) and the ALU functions (spec/41_dispatcher.md R120). Only
`CMP #imm` writes a flag, and it writes Zero alone (R26; notes/assumptions/13.md). -/

namespace Sys2Proof.Machine

/-- `Z_BIT` (spec/00_scope.md R5). -/
def zBit : Nat := 0

/-- `C_BIT` (spec/00_scope.md R5). -/
def cBit : Nat := 1

/-- `P.Z` (R26). -/
def zeroFlag (p : Byte) : Bool := p.getLsbD zBit

/-- `P.C` (R27). -/
def carryFlag (p : Byte) : Bool := p.getLsbD cBit

/-- `P.Z <- z`: bit 0 alone, the other bits kept (spec/43_arith.md R164). -/
def setZero (p : Byte) (z : Bool) : Byte := (p &&& ~~~(1#8 <<< zBit)) ||| (if z then 1#8 <<< zBit else 0#8)

/-- `ZERO`. -/
def aluZero : Byte := 0x00

/-- `INC(v)`: (v + 1) mod 256. -/
def aluInc (v : Byte) : Byte := v + 1

/-- `ADD(a, b)`: (a + b) mod 256, no carry in, no carry out. -/
def aluAdd (a b : Byte) : Byte := a + b

/-- `EQ(a, b)`: for `P.Z` only. -/
def aluEq (a b : Byte) : Bool := a == b

end Sys2Proof.Machine
end

