-- ==== Sys2Proof/Machine/Operands.lean ====
section
/-! DEFINITION. The addressing-mode resolver (spec/40_resolver.md): all seven modes, the selector, and operand assembly
(spec/30_encoding.md R72). -/

namespace Sys2Proof.Machine

/-- `zext_16(v)` (spec/00_scope.md R8). -/
def zext16 (v : Byte) : Addr := v.setWidth 16

/-- `hi:lo`, the low byte first in memory (spec/20_memory.md R54; notes/assumptions/16.md). -/
def hiLo (hi lo : Byte) : Addr := hi ++ lo

/-- The 3-bit mode selector (spec/30_encoding.md R78). Selector 7 is no mode. -/
def modeOfSelector (sel : BitVec 3) : Option Mode :=
  match sel.toNat with
  | 0 => some .immediate
  | 1 => some .zeroPage
  | 2 => some .absolute
  | 3 => some .zeroPageX
  | 4 => some .absoluteX
  | 5 => some .zeroPageY
  | 6 => some .absoluteY
  | _ => none

/-- How many operand bytes the resolver consumes: "0, 1, 1, 1, 2, 1, 2", by mode (R90). -/
def operandCount : Mode → Nat
  | .immediate => 0
  | .zeroPage | .zeroPageX | .zeroPageY => 1
  | .absolute | .absoluteX | .absoluteY => 2

/-- The effective address of a mode (R91 to R97), from `PC` on entry, the operand bytes `lo` and `hi`, and the index registers.
The zero-page-indexed sum drops its carry; the absolute-indexed sum wraps at 16 bits whatever `TOP_POLICY` is (R101). -/
def effectiveAddress (m : Mode) (pc : Addr) (lo hi x y : Byte) : Addr :=
  match m with
  | .immediate => pc
  | .zeroPage => zext16 lo
  | .absolute => hiLo hi lo
  | .zeroPageX => zext16 (lo + x)
  | .absoluteX => hiLo hi lo + zext16 x
  | .zeroPageY => zext16 (lo + y)
  | .absoluteY => hiLo hi lo + zext16 y

/-- The resolver on operand bytes that decoding has read: it steps over them and forms the effective address. It writes no
register but `PC` (R90). -/
def resolveOperands (m : Mode) (lo hi : Byte) (s : State) : Flow Addr :=
  match advancePc (operandCount m) s with
  | .ok _ t => .ok (effectiveAddress m s.pc lo hi s.x s.y) t
  | .halt t => .halt t
  | .stop f => .stop f

/-- `Resolve(mode)` (R90): the operand bytes are the ones in memory at `PC`. -/
def resolve (m : Mode) (s : State) : Flow Addr := resolveOperands m (s.memRead s.pc) (s.memRead (s.pc + 1)) s

/-- The resolver's own interface, by selector: a selector that is no mode is fatal, consumes no byte and leaves `PC` (R98). -/
def resolveSelector (sel : BitVec 3) (s : State) : Flow Addr :=
  match modeOfSelector sel with
  | some m => resolve m s
  | none => .halt (raise (.invalidAddressingMode sel) s)

end Sys2Proof.Machine
end

