-- ==== Sys2Proof/Machine/LoadStore.lean ====
section
/-! DEFINITION. Loads, stores and store-zero (spec/42_load_store.md). A meaning is entered in the execute phase, `PC` at the byte
after the opcode (spec/41_dispatcher.md R111). None of them writes a flag (R130). -/

namespace Sys2Proof.Machine

/-- The immediate byte of an instruction: it stands at `Resolve(Immediate)`, which consumes nothing, and the instruction itself
steps over it (spec/40_resolver.md R91; the decoded byte is the one there, notes/assumptions/24.md). -/
def withImmediate (imm8 : Byte) (s : State) (k : Byte → State → State) : Result :=
  (resolveOperands .immediate imm8 0 s).andThen fun _ t =>
    (advancePc 1 t).andThen fun _ u => complete (k imm8 u)

/-- Read the byte at a mode's effective address and hand it to the destination. -/
def loadFrom (m : Mode) (lo hi : Byte) (s : State) (k : State → Byte → State) : Result :=
  (resolveOperands m lo hi s).andThen fun ea t => complete (k t (t.memRead ea))

/-- Write a byte at a mode's effective address. -/
def storeTo (m : Mode) (lo hi v : Byte) (s : State) : Result :=
  (resolveOperands m lo hi s).andThen fun ea t => complete (t.memWrite ea v)

/-- `LDA #imm` (R131): `A` takes the operand byte. -/
def execLdaImm (imm8 : Byte) (s : State) : Result := withImmediate imm8 s fun v t => t.setA v

/-- `LDX #imm` (R132): `X` takes the operand byte. -/
def execLdxImm (imm8 : Byte) (s : State) : Result := withImmediate imm8 s fun v t => t.setX v

/-- `LDY #imm` (R133): `Y` takes the operand byte. -/
def execLdyImm (imm8 : Byte) (s : State) : Result := withImmediate imm8 s fun v t => t.setY v

/-- `LDA zp` (R134). -/
def execLdaZp (zp8 : Byte) (s : State) : Result := loadFrom .zeroPage zp8 0 s State.setA

/-- `LDA abs` (R135). -/
def execLdaAbs (addrLo addrHi : Byte) (s : State) : Result := loadFrom .absolute addrLo addrHi s State.setA

/-- `LDX zp` (R136). -/
def execLdxZp (zp8 : Byte) (s : State) : Result := loadFrom .zeroPage zp8 0 s State.setX

/-- `LDX abs` (R137). -/
def execLdxAbs (addrLo addrHi : Byte) (s : State) : Result := loadFrom .absolute addrLo addrHi s State.setX

/-- `LDY zp` (R138). -/
def execLdyZp (zp8 : Byte) (s : State) : Result := loadFrom .zeroPage zp8 0 s State.setY

/-- `LDY abs` (R139). -/
def execLdyAbs (addrLo addrHi : Byte) (s : State) : Result := loadFrom .absolute addrLo addrHi s State.setY

/-- `STA zp` (R140). -/
def execStaZp (zp8 : Byte) (s : State) : Result := storeTo .zeroPage zp8 0 s.a s

/-- `STA abs` (R141). -/
def execStaAbs (addrLo addrHi : Byte) (s : State) : Result := storeTo .absolute addrLo addrHi s.a s

/-- `STX zp` (R142). -/
def execStxZp (zp8 : Byte) (s : State) : Result := storeTo .zeroPage zp8 0 s.x s

/-- `STX abs` (R143). -/
def execStxAbs (addrLo addrHi : Byte) (s : State) : Result := storeTo .absolute addrLo addrHi s.x s

/-- `STY zp` (R144). -/
def execStyZp (zp8 : Byte) (s : State) : Result := storeTo .zeroPage zp8 0 s.y s

/-- `STY abs` (R145). -/
def execStyAbs (addrLo addrHi : Byte) (s : State) : Result := storeTo .absolute addrLo addrHi s.y s

/-- `STZ zp` (R146): the byte 0x00, whatever the registers hold. -/
def execStzZp (zp8 : Byte) (s : State) : Result := storeTo .zeroPage zp8 0 aluZero s

end Sys2Proof.Machine
end

