-- ==== Sys2Proof/Machine/Arith.lean ====
section
/-! DEFINITION. Increments, add and compare (spec/43_arith.md). All of them wrap modulo 256; only the compare writes a flag. -/

namespace Sys2Proof.Machine

/-- `INX` (R160). -/
def execInx (s : State) : Result := complete (s.setX (aluInc s.x))

/-- `INY` (R161). -/
def execIny (s : State) : Result := complete (s.setY (aluInc s.y))

/-- `INC zp` (R162): one read, then one write of the same byte. -/
def execIncZp (zp8 : Byte) (s : State) : Result :=
  (resolveOperands .zeroPage zp8 0 s).andThen fun ea t => complete (t.memWrite ea (aluInc (t.memRead ea)))

/-- `ADC #imm` (R163): a plain add; Carry is neither added in nor written, Zero is not written. That no
instruction computes Carry is the source's open question (a), kept as observed (notes/assumptions/29.md). -/
def execAdcImm (imm8 : Byte) (s : State) : Result := withImmediate imm8 s fun v t => t.setA (aluAdd t.a v)

/-- `CMP #imm` (R164): `P.Z` tells whether `A` equals the operand; nothing else is written. -/
def execCmpImm (imm8 : Byte) (s : State) : Result :=
  withImmediate imm8 s fun v t => t.setP (setZero t.p (aluEq t.a v))

end Sys2Proof.Machine
end

