-- ==== Sys2Proof/Machine/BranchJump.lean ====
section
/-! DEFINITION. Conditional branches and the absolute jump (spec/44_branch_jump.md). They write no register but `PC`, no flag and no
memory. -/

namespace Sys2Proof.Machine

/-- What a taken branch adds its offset to: `pc1` is the operand's address (pc0 + 1), `pc2` the next instruction's (pc0 + 2)
(R170; notes/assumptions/3.md). -/
def branchBaseAddr (b : BranchBase) (pc1 pc2 : Addr) : Addr :=
  match b with
  | .nextInstruction => pc2
  | .operandByte => pc1

/-- The common branch (R170): the operand is stepped over whether or not the branch is taken, and a taken branch adds the
offset zero-extended, so it only goes forward: the source's open question (b), kept as observed (notes/assumptions/30.md). -/
def branchIf (cond : Bool) (off8 : Byte) (s : State) : Result :=
  (advancePc 1 s).andThen fun _ t =>
    if cond then (setPcTo (branchBaseAddr t.cfg.branchBase s.pc t.pc) off8.toNat t).andThen fun _ u => complete u
    else complete t

/-- `BEQ rel` (R171): taken when Zero is set. -/
def execBeq (off8 : Byte) (s : State) : Result := branchIf (zeroFlag s.p) off8 s

/-- `BNE rel` (R172): taken when Zero is clear. -/
def execBne (off8 : Byte) (s : State) : Result := branchIf (!zeroFlag s.p) off8 s

/-- `BCS rel` (R173): taken when Carry is set. -/
def execBcs (off8 : Byte) (s : State) : Result := branchIf (carryFlag s.p) off8 s

/-- `BCC rel` (R174): taken when Carry is clear. -/
def execBcc (off8 : Byte) (s : State) : Result := branchIf (!carryFlag s.p) off8 s

/-- `JMP abs` (R175): to the operand; a trap address is a target like any other (spec/47_host_io.md R215). -/
def execJmpAbs (addrLo addrHi : Byte) (s : State) : Result :=
  (resolveOperands .absolute addrLo addrHi s).andThen fun ea t => complete (t.setPc ea)

end Sys2Proof.Machine
end

