-- ==== Sys2Proof/Machine/HostIo.lean ====
section
/-! DEFINITION. The host I/O bridge (spec/47_host_io.md): the two host actions and the trapped call. -/

namespace Sys2Proof.Machine

/-- A call target that is a host action instead of code (R210, R211). -/
def isTrap (c : Config) (target : Addr) : Bool := target == c.trapOut || target == c.trapIn

/-- `HostOut(A)` (R212): append `A` to `OUT`; output never blocks and never fails (R217). -/
def hostOut (s : State) : State := s.setOutput (s.output ++ [s.a])

/-- `A <- HostIn()` (R213): the first byte of `IN`, where there is one. -/
def hostIn (s : State) : Option State :=
  match s.input with
  | [] => none
  | b :: rest => some ((s.setInput rest).setA b)

/-- The core waits for a character (R218, spec/41_dispatcher.md R117): no state changes, so `PC` is at the call's opcode byte
again and nothing has been pushed; only the phase says that the step waits (notes/assumptions/7.md). `entry` is the state in
which the call's execute phase began. -/
def waitForInput (entry : State) : State := (entry.setPc (entry.pc - 1)).setPhase .ioWait

/-- `TrappedCall(target)` (R211), with the return address pushed and `PC` at the target: the host action, then the implicit
return. No opcode is fetched at the target (R216). -/
def trappedCall (target : Addr) (entry s : State) : Result :=
  if target = s.cfg.trapOut then popToPc (hostOut s)
  else
    match hostIn s with
    | some t => popToPc t
    | none => .next (waitForInput entry)

end Sys2Proof.Machine
end

