-- ==== Sys2Proof/Machine/CallReturn.lean ====
section
/-! DEFINITION. Subroutine call and return (spec/45_call_return.md). Return addresses live in `CS`, never in memory, and `SP` plays
no part (R185, R188). -/

namespace Sys2Proof.Machine

/-- `JSR abs` (R182): both operand bytes are consumed, then the address of the next instruction is pushed, then `PC` takes the
target, then the trap check, in that order (spec/41_dispatcher.md R121). The pushed address is pc0 + 3, past both operand bytes: the source's open
question (c) (notes/assumptions/31.md). -/
def execJsrAbs (addrLo addrHi : Byte) (s : State) : Result :=
  (resolveOperands .absolute addrLo addrHi s).andThen fun target t =>
    (push t.pc t).andThen fun _ u =>
      if isTrap u.cfg target then trappedCall target s (u.setPc target) else complete (u.setPc target)

/-- `RTS` (R183): the popped address is used as it is. -/
def execRts (s : State) : Result := popToPc s

end Sys2Proof.Machine
end

