-- ==== Sys2Proof/Machine/Transfer.lean ====
section
/-! DEFINITION. Register transfers (spec/46_transfer.md): all 8 bits, no flag, no call-stack state (R206). -/

namespace Sys2Proof.Machine

/-- `TAX` (R200). -/
def execTax (s : State) : Result := complete (s.setX s.a)

/-- `TAY` (R201). -/
def execTay (s : State) : Result := complete (s.setY s.a)

/-- `TXA` (R202). -/
def execTxa (s : State) : Result := complete (s.setA s.x)

/-- `TYA` (R203). -/
def execTya (s : State) : Result := complete (s.setA s.y)

/-- `TSX` (R204): the data register `SP`, not the call depth. -/
def execTsx (s : State) : Result := complete (s.setX s.sp)

/-- `TXS` (R205): the call stack does not move. -/
def execTxs (s : State) : Result := complete (s.setSp s.x)

end Sys2Proof.Machine
end

