-- ==== Sys2Proof/Machine/Dispatch.lean ====
section
/-! DEFINITION. One arm per constructor of `Instr`, each one direct call of that instruction's meaning. -/

namespace Sys2Proof.Machine

/-- The execute phase (spec/41_dispatcher.md R113), entered with `PC` at the byte after the opcode. -/
def exec (i : Instr) (s : State) : Host.Outcome State Fault Refusal :=
  match i with
  | .ldaImm imm8 => Sys2Proof.Machine.execLdaImm imm8 s
  | .ldxImm imm8 => Sys2Proof.Machine.execLdxImm imm8 s
  | .ldyImm imm8 => Sys2Proof.Machine.execLdyImm imm8 s
  | .ldaZp zp8 => Sys2Proof.Machine.execLdaZp zp8 s
  | .ldaAbs addrLo addrHi => Sys2Proof.Machine.execLdaAbs addrLo addrHi s
  | .ldxZp zp8 => Sys2Proof.Machine.execLdxZp zp8 s
  | .ldxAbs addrLo addrHi => Sys2Proof.Machine.execLdxAbs addrLo addrHi s
  | .ldyZp zp8 => Sys2Proof.Machine.execLdyZp zp8 s
  | .ldyAbs addrLo addrHi => Sys2Proof.Machine.execLdyAbs addrLo addrHi s
  | .staZp zp8 => Sys2Proof.Machine.execStaZp zp8 s
  | .staAbs addrLo addrHi => Sys2Proof.Machine.execStaAbs addrLo addrHi s
  | .stxZp zp8 => Sys2Proof.Machine.execStxZp zp8 s
  | .stxAbs addrLo addrHi => Sys2Proof.Machine.execStxAbs addrLo addrHi s
  | .styZp zp8 => Sys2Proof.Machine.execStyZp zp8 s
  | .styAbs addrLo addrHi => Sys2Proof.Machine.execStyAbs addrLo addrHi s
  | .stzZp zp8 => Sys2Proof.Machine.execStzZp zp8 s
  | .inx => Sys2Proof.Machine.execInx s
  | .iny => Sys2Proof.Machine.execIny s
  | .incZp zp8 => Sys2Proof.Machine.execIncZp zp8 s
  | .adcImm imm8 => Sys2Proof.Machine.execAdcImm imm8 s
  | .cmpImm imm8 => Sys2Proof.Machine.execCmpImm imm8 s
  | .beq off8 => Sys2Proof.Machine.execBeq off8 s
  | .bne off8 => Sys2Proof.Machine.execBne off8 s
  | .bcs off8 => Sys2Proof.Machine.execBcs off8 s
  | .bcc off8 => Sys2Proof.Machine.execBcc off8 s
  | .jmpAbs addrLo addrHi => Sys2Proof.Machine.execJmpAbs addrLo addrHi s
  | .jsrAbs addrLo addrHi => Sys2Proof.Machine.execJsrAbs addrLo addrHi s
  | .rts => Sys2Proof.Machine.execRts s
  | .tax => Sys2Proof.Machine.execTax s
  | .tay => Sys2Proof.Machine.execTay s
  | .txa => Sys2Proof.Machine.execTxa s
  | .tya => Sys2Proof.Machine.execTya s
  | .tsx => Sys2Proof.Machine.execTsx s
  | .txs => Sys2Proof.Machine.execTxs s

end Sys2Proof.Machine
end

