-- ==== Sys2Proof/Machine/Environment.lean ====
section
/-! DEFINITION. What the host can do to the machine: load bytes before the run and deliver input characters. The reset input
stands in Sys2Proof/Machine/Ops.lean; the field writes of spec/10_state.md R42 are the setters there. -/

namespace Sys2Proof.Machine

/-- The loader (spec/70_reset_and_hazards.md R264): raw bytes at ascending addresses; it writes `M` only. -/
def loadBytes (base : Addr) (bytes : List Byte) (s : State) : State :=
  match bytes with
  | [] => s
  | b :: rest => loadBytes (base + 1) rest (s.memWrite base b)

/-- The host delivers a character (spec/41_dispatcher.md R117): it joins the end of `IN`. -/
def deliver (b : Byte) (s : State) : State := s.setInput (s.input ++ [b])

/-- The numeric code of a fault kind, 0 for none (`FAULT_CODE`, spec/60_exceptions.md R230). -/
def faultCode (f : Option Fatal) : Nat :=
  match f with
  | none => 0
  | some (.unknownOpcode _) => 1
  | some (.invalidAddressingMode _) => 2
  | some .stackOverflow => 3
  | some .stackUnderflow => 4

/-- `FAULT.info`, the offending value, absent for the two stack conditions (R230, R236). -/
def faultInfo (f : Option Fatal) : Option Byte :=
  match f with
  | some (.unknownOpcode b) => some b
  | some (.invalidAddressingMode sel) => some (sel.setWidth 8)
  | _ => none

/-- A core that can fetch: running, nothing recorded, at Fetch. -/
def makeReady (s : State) : State := { s with run := true, fault := none, phase := .fetch }

/-- Lay an instruction's bytes where the next fetch reads them, in a core that can fetch. -/
def placeInstruction (bytes : List Byte) (s : State) : State := loadBytes s.pc bytes (makeReady s)

end Sys2Proof.Machine
end

