-- ==== Sys2Proof/Machine/Fetch.lean ====
section
/-! DEFINITION. The dispatcher's fetch and decode phases (spec/41_dispatcher.md R111, R112). -/

namespace Sys2Proof.Machine

/-- Fetch (R111): read the byte at `PC`, then advance `PC` by one, whatever the byte is. -/
def fetch (s : State) : Flow Byte :=
  match advancePc 1 s with
  | .ok _ t => .ok (s.memRead s.pc) (t.setPhase .decode)
  | .halt t => .halt t
  | .stop f => .stop f

/-- Decode (R112): look the opcode byte up in the table; the operand bytes are the ones that follow in memory, at `PC` and
`PC +16 1` (spec/30_encoding.md R70, R80). A byte in no row is fatal, `PC` stays behind it (spec/60_exceptions.md R231). -/
def decodePhase (opcode : Byte) (s : State) : Flow Instr :=
  match decodeWith s.cfg.opcodes [opcode, s.memRead s.pc, s.memRead (s.pc + 1)] with
  | .ok (i, _) => .ok i (s.setPhase .execute)
  | .error _ => .halt (raise (.unknownOpcode opcode) s)

end Sys2Proof.Machine
end

