-- ==== Sys2Proof/Machine/Step.lean ====
section
/-! DEFINITION. One step: one dispatcher iteration, fetch, decode and execute of one instruction, as one transition
(spec/41_dispatcher.md R110, R114; spec/00_scope.md R7). -/

namespace Sys2Proof.Machine

/-- One iteration. A halted core fetches nothing (R118). -/
def step (s : State) : Host.Outcome State Fault Refusal :=
  if s.run then (fetch s).andThen fun opcode t => (decodePhase opcode t).andThen exec
  else .fault (.halted s.fault)

/-- `s` with an instruction's bits, numbered as the opcode table numbers them, stored where `step` fetches next; the core is set
to run where it was halted or waiting (notes/assumptions/11.md). -/
def State.withFetchWord (s : State) (nbits w : Nat) : State := placeInstruction (wordBytes nbits w) s

end Sys2Proof.Machine
end

