-- ==== Sys2Proof/Safety.lean ====
section
/-! DEFINITION. What counts as a good state and a safe run, in the terms the statements use: the machine's invariant, what an
instruction may write, the call stack as the list it stands for, and when two states differ in nothing a program can see. -/

namespace Sys2Proof.Machine

/-! ## The invariant -/

/-- Run latch, fault record and phase agree (spec/10_state.md R33, R34): a running core has recorded no fault and is at Fetch or
waits for input; a halted one has recorded a fault and is at Halted. -/
def State.runConsistent (s : State) : Prop :=
  (s.run = true ∧ s.fault = none ∧ (s.phase = .fetch ∨ s.phase = .ioWait)) ∨
  (s.run = false ∧ s.fault ≠ none ∧ s.phase = .halted)

/-- The recorded fault is one that can have arisen (spec/60_exceptions.md R231 to R234): the byte is in no row of the table, no
instruction stream raises InvalidAddressingMode, and the call-stack pointer is where a stack fault leaves it. -/
def State.faultConsistent (s : State) : Prop :=
  match s.fault with
  | none => True
  | some (.unknownOpcode b) => lookupOpcode s.cfg.opcodes b = none
  | some (.invalidAddressingMode _) => False
  | some .stackOverflow => s.csp = 0
  | some .stackUnderflow => s.csp = 255

/-- The invariant every step keeps: memory in canonical form, and the two above. -/
structure State.Inv (s : State) : Prop where
  memory : s.mem.wf = true
  run    : s.runConsistent
  fault  : s.faultConsistent

/-! ## Where a step goes -/

/-- `PC` may go on by `n` without leaving 0..0xFFFF, or the machine wraps (spec/20_memory.md R63). -/
def State.roomFor (s : State) (n : Nat) : Prop := s.cfg.topPolicy = .fault → s.pc.toNat + n ≤ 0xFFFF

/-- `s` after an instruction with `n` operand bytes that does nothing else, seen from the execute phase: `PC` is past them and
the dispatcher is back at Fetch (spec/41_dispatcher.md R113, R115). -/
def State.after (s : State) (n : Nat) : State := { s with pc := s.pc + BitVec.ofNat 16 n, phase := .fetch }

/-- `s` as the execute phase of the instruction at `PC` finds it (spec/41_dispatcher.md R111, R112). -/
def State.entered (s : State) : State := { s with pc := s.pc + 1, phase := .execute }

/-- The three bytes at `PC`, the longest instruction there can be. -/
def State.bytesAtPc (s : State) : List Byte := [s.memRead s.pc, s.memRead (s.pc + 1), s.memRead (s.pc + 1 + 1)]

/-- The outcome with a change made to its next state. -/
def mapNext (f : State → State) : Result → Result
  | .next t => .next (f t)
  | .fault r => .fault r
  | .refused r => .refused r

/-! ## What an instruction may write (spec/10_state.md R37) -/

/-- The address an instruction stores to, from the state its execute phase finds: the same effective address its meaning uses
(spec/42_load_store.md, spec/43_arith.md R162). -/
def storeAddress (i : Instr) (s : State) : Option Addr :=
  match i with
  | .staZp zp8 | .stxZp zp8 | .styZp zp8 | .stzZp zp8 | .incZp zp8 =>
    some (effectiveAddress .zeroPage s.pc zp8 0 s.x s.y)
  | .staAbs addrLo addrHi | .stxAbs addrLo addrHi | .styAbs addrLo addrHi =>
    some (effectiveAddress .absolute s.pc addrLo addrHi s.x s.y)
  | _ => none

/-- The byte an instruction stores: a register, zero, or the old byte plus one; of no account where it stores none (R140 to R146,
spec/43_arith.md R162). -/
def storedByte (i : Instr) (s : State) : Byte :=
  match i with
  | .staZp _ | .staAbs _ _ => s.a
  | .stxZp _ | .stxAbs _ _ => s.x
  | .styZp _ | .styAbs _ _ => s.y
  | .incZp zp8 => s.memRead (zext16 zp8) + 1
  | _ => 0x00

/-- What an address reads as once an instruction has stored at `ea`: the stored byte there, the old byte elsewhere. -/
def byteAfterStore (i : Instr) (s : State) (ea b : Addr) : Byte := if b = ea then storedByte i s else s.memRead b

/-- The target of a call, and of no other instruction. -/
def callTarget (i : Instr) : Option Addr :=
  match i with
  | .jsrAbs addrLo addrHi => some (hiLo addrHi addrLo)
  | _ => none

/-- Instructions that write `A`, leaving the input trap aside. -/
def writesA (i : Instr) : Bool :=
  match i with
  | .ldaImm _ | .ldaZp _ | .ldaAbs _ _ | .adcImm _ | .txa | .tya => true
  | _ => false

/-- Instructions that write `X`. -/
def writesX (i : Instr) : Bool :=
  match i with
  | .ldxImm _ | .ldxZp _ | .ldxAbs _ _ | .inx | .tax | .tsx => true
  | _ => false

/-- Instructions that write `Y`. -/
def writesY (i : Instr) : Bool :=
  match i with
  | .ldyImm _ | .ldyZp _ | .ldyAbs _ _ | .iny | .tay => true
  | _ => false

/-- Instructions that set `PC` themselves (spec/41_dispatcher.md R115). -/
def setsPc (i : Instr) : Bool :=
  match i with
  | .beq _ | .bne _ | .bcs _ | .bcc _ | .jmpAbs _ _ | .jsrAbs _ _ | .rts => true
  | _ => false

/-- Instructions that use the call stack. -/
def usesCallStack (i : Instr) : Bool :=
  match i with
  | .jsrAbs _ _ | .rts => true
  | _ => false

/-! ## The call stack as a list -/

/-- The return addresses held, the most recent call's first: slots `CSP + 1` to 255 (spec/10_state.md R32 (b)). -/
def State.outstanding (s : State) : List Addr :=
  (List.range (255 - s.csp.toNat)).map (fun k => slotAt s.cs (s.csp + 1 + BitVec.ofNat 8 k))

/-- Push a sequence of addresses, the first one first; `none` where a push is fatal. -/
def pushAll (s : State) : List Addr → Option State
  | [] => some s
  | a :: as =>
    match push a s with
    | .ok _ t => pushAll t as
    | _ => none

/-- Pop a number of addresses, in the order popped; `none` where a pop is fatal. -/
def popAll (s : State) : Nat → Option (List Addr × State)
  | 0 => some ([], s)
  | n + 1 =>
    match pop s with
    | .ok a t => (popAll t n).map (fun r => (a :: r.1, r.2))
    | _ => none

/-- Two states that differ at most in slots of the call stack that hold no outstanding return address (spec/10_state.md R32 (d),
spec/93_implementation_defined.md U4). -/
def sameButStaleSlots (s t : State) : Prop :=
  t = { s with cs := t.cs } ∧ ∀ k : Byte, s.csp < k → slotAt t.cs k = slotAt s.cs k

/-- Two outcomes that differ at most so. -/
def sameOutcomeButStaleSlots : Result → Result → Prop
  | .next s, .next t => sameButStaleSlots s t
  | .fault f, .fault g => f = g
  | .refused f, .refused g => f = g
  | _, _ => False

end Sys2Proof.Machine
end

