-- ==== Sys2Proof/Certificates/Slice0/Obligations.lean ====
section
/-! DEFINITION. The statements for the provers. A meaning is entered in the execute phase, so in a statement about `exec` the
state's `pc` is pc0 + 1, the byte after the opcode; in a statement about `step` it is pc0. Every statement holds for every
value of the parameters (`cfg`) unless it names one. -/

open Sys2Proof Sys2Proof.Machine

/-- State.reset has A, X, Y, P and PC zero and SP 0xFF (R38), an empty call stack, CSP = 255 (R39; the number is decision
D11, log 27), and every byte of memory reads zero (R40). That the core runs and no fault is recorded is the spec's
decision D16 (R33, R41; log 28), that a reset sets them and the phase Fetch is D18 (R41; log 9; the phases are D16 and
D25, log 12), that OUT is an empty trace is D20 (R41; log 8). Nothing is said of the call-stack slots, which the spec
leaves unspecified. (10_state.md section 8, R38, R39, R40, R33, R34, R41) -/
def Obligations.PowerOnResetValues : Prop :=
  State.reset.a = 0x00 ∧ State.reset.x = 0x00 ∧ State.reset.y = 0x00 ∧ State.reset.p = 0x00 ∧
  State.reset.pc = 0x0000 ∧ State.reset.sp = 0xFF ∧ State.reset.csp = 255 ∧
  (∀ addr, State.reset.memRead addr = 0x00) ∧
  State.reset.run = true ∧ State.reset.fault = none ∧ State.reset.phase = .fetch ∧ State.reset.output = []

/-- From every state, halted or waiting included, the reset input gives A, X, Y, P, PC, SP and CSP their reset values,
clears the fault record, sets the run latch, enters Fetch and empties OUT; memory, the call-stack slots, IN and the
parameters are unchanged. That a reset after power-on keeps memory and sets the run latch, the fault record and the
phase is the spec's decision D18; that it keeps the slots and IN and empties OUT also after power-on is the model's
own choice, from R41 (log 9). (70_reset_and_hazards.md section 1, 10_state.md section 8, R260, R261, R41) -/
def Obligations.ResetInputGivesResetValuesAndKeepsMemory : Prop :=
  ∀ s : State,
    (resetInput s).a = 0x00 ∧ (resetInput s).x = 0x00 ∧ (resetInput s).y = 0x00 ∧ (resetInput s).p = 0x00 ∧
    (resetInput s).pc = 0x0000 ∧ (resetInput s).sp = 0xFF ∧ (resetInput s).csp = 255 ∧
    (resetInput s).run = true ∧ (resetInput s).fault = none ∧ (resetInput s).phase = .fetch ∧
    (resetInput s).output = [] ∧ (resetInput s).mem = s.mem ∧ (resetInput s).cs = s.cs ∧
    (resetInput s).input = s.input ∧ (resetInput s).cfg = s.cfg

/-- State.reset meets the invariant (memory in canonical form; run latch, fault record and phase agree; the recorded fault
is possible), and so does the state after the reset input from any state whose memory is in canonical form. (10_state.md section 8, R33, R38) -/
def Obligations.ResetMeetsInvariant : Prop :=
  State.reset.Inv ∧ ∀ s : State, s.mem.wf = true → (resetInput s).Inv

/-- From every state that meets the invariant, a step that answers a next state answers one that meets it: memory stays in
canonical form, run latch, fault record and phase agree (a running core is at Fetch or waits for input, a halted one
at Halted with a fault recorded), and the recorded fault is one the instruction stream can raise (never
InvalidAddressingMode; UnknownOpcode only of a byte in no row; the stack faults only with CSP at 0 or 255). (10_state.md sections 4 and 6, 60_exceptions.md section 1, R33, R235) -/
def Obligations.StepKeepsInvariant : Prop :=
  ∀ s t : State, s.Inv → step s = .next t → t.Inv

/-- For every state, address and byte: after MemWrite the byte reads back, every other address reads as before, and
nothing but memory has changed; MemRead returns a byte for every address and is a function of memory and address
alone. (R51, R52) -/
def Obligations.MemoryWriteReadsBack : Prop :=
  ∀ (s : State) (ea : Addr) (v : Byte),
    (s.memWrite ea v).memRead ea = v ∧
    (∀ b : Addr, b ≠ ea → (s.memWrite ea v).memRead b = s.memRead b) ∧
    s.memWrite ea v = { s with mem := (s.memWrite ea v).mem } ∧
    ∀ (t : State), t.mem = s.mem → t.memRead ea = s.memRead ea

/-- If two memories are in canonical form and every one of the 65536 addresses reads the same in both, they are equal as
data. The canonical form is the model's own representation. (20_memory.md section 1, R50) -/
def Obligations.CanonicalMemoriesReadingAlikeAreEqual : Prop :=
  ∀ s t : State, s.mem.wf = true → t.mem.wf = true →
    (∀ ea : Addr, s.memRead ea = t.memRead ea) → s.mem = t.mem

/-- In a running core with room for the fetch increment, if the bytes at PC decode by the machine's table to an
instruction, a step is the execute phase of it with PC at the byte after the opcode. (41_dispatcher.md section 1, R111, R112, R113) -/
def Obligations.StepRunsDecodedInstruction : Prop :=
  ∀ (s : State) (i : Instr) (rest : List Byte),
    s.run = true → s.roomFor 1 → decodeWith s.cfg.opcodes s.bytesAtPc = .ok (i, rest) → step s = exec i s.entered

/-- For each of the 34 rows of R74, the row's byte written out bit by bit and followed by its format's operand bytes, of
any value, decodes to the row's instruction with those operands, the first byte of two being addr_lo, and leaves the
bytes behind. The worked encodings of R82 are among these words. The bytes 0x00 and 0xEA, in no row, are refused as
UnknownOpcode of that byte. The byte values are decision D3 (log 1), the order of two operand bytes D12 (log 16). (30_encoding.md sections 1, 2, 3 and 5, R71, R72, R74, R76, R82) -/
def Obligations.SpecWordsDecode : Prop :=
  ∀ (b lo hi : Byte) (rest : List Byte),
    decode (0b10101001 :: b :: rest) = .ok (.ldaImm b, rest) ∧
    decode (0b10100010 :: b :: rest) = .ok (.ldxImm b, rest) ∧
    decode (0b10100000 :: b :: rest) = .ok (.ldyImm b, rest) ∧
    decode (0b10100101 :: b :: rest) = .ok (.ldaZp b, rest) ∧
    decode (0b10101101 :: lo :: hi :: rest) = .ok (.ldaAbs lo hi, rest) ∧
    decode (0b10100110 :: b :: rest) = .ok (.ldxZp b, rest) ∧
    decode (0b10101110 :: lo :: hi :: rest) = .ok (.ldxAbs lo hi, rest) ∧
    decode (0b10100100 :: b :: rest) = .ok (.ldyZp b, rest) ∧
    decode (0b10101100 :: lo :: hi :: rest) = .ok (.ldyAbs lo hi, rest) ∧
    decode (0b10000101 :: b :: rest) = .ok (.staZp b, rest) ∧
    decode (0b10001101 :: lo :: hi :: rest) = .ok (.staAbs lo hi, rest) ∧
    decode (0b10000110 :: b :: rest) = .ok (.stxZp b, rest) ∧
    decode (0b10001110 :: lo :: hi :: rest) = .ok (.stxAbs lo hi, rest) ∧
    decode (0b10000100 :: b :: rest) = .ok (.styZp b, rest) ∧
    decode (0b10001100 :: lo :: hi :: rest) = .ok (.styAbs lo hi, rest) ∧
    decode (0b01100100 :: b :: rest) = .ok (.stzZp b, rest) ∧
    decode (0b11101000 :: rest) = .ok (.inx, rest) ∧
    decode (0b11001000 :: rest) = .ok (.iny, rest) ∧
    decode (0b11100110 :: b :: rest) = .ok (.incZp b, rest) ∧
    decode (0b01101001 :: b :: rest) = .ok (.adcImm b, rest) ∧
    decode (0b11001001 :: b :: rest) = .ok (.cmpImm b, rest) ∧
    decode (0b11110000 :: b :: rest) = .ok (.beq b, rest) ∧
    decode (0b11010000 :: b :: rest) = .ok (.bne b, rest) ∧
    decode (0b10110000 :: b :: rest) = .ok (.bcs b, rest) ∧
    decode (0b10010000 :: b :: rest) = .ok (.bcc b, rest) ∧
    decode (0b01001100 :: lo :: hi :: rest) = .ok (.jmpAbs lo hi, rest) ∧
    decode (0b00100000 :: lo :: hi :: rest) = .ok (.jsrAbs lo hi, rest) ∧
    decode (0b01100000 :: rest) = .ok (.rts, rest) ∧
    decode (0b10101010 :: rest) = .ok (.tax, rest) ∧
    decode (0b10101000 :: rest) = .ok (.tay, rest) ∧
    decode (0b10001010 :: rest) = .ok (.txa, rest) ∧
    decode (0b10011000 :: rest) = .ok (.tya, rest) ∧
    decode (0b10111010 :: rest) = .ok (.tsx, rest) ∧
    decode (0b10011010 :: rest) = .ok (.txs, rest) ∧
    decode (0b00000000 :: rest) = .error (.unknownOpcode 0x00) ∧
    decode (0b11101010 :: rest) = .error (.unknownOpcode 0xEA)

/-- For every opcode table in order and every instruction it has a row for, with every operand byte: the encoder answers
bytes, and decoding them with anything behind gives the instruction back and leaves what is behind. By the table of
R74 this holds of every instruction. (30_encoding.md sections 1, 2 and 6, R71, R74, R80) -/
def Obligations.EncodeThenDecodeGivesInstruction : Prop :=
  (∀ (t : OpcodeTable) (i : Instr) (rest : List Byte), t.wellFormed = true → i.wellFormed t = true →
    ∃ bytes, encodeWith t i = some bytes ∧ decodeWith t (bytes ++ rest) = .ok (i, rest)) ∧
  ∀ (i : Instr) (rest : List Byte), decode (encode i ++ rest) = .ok (i, rest)

/-- For every opcode table in order: if bytes decode to an instruction with a rest, they are that instruction's encoding
followed by the rest, one opcode byte and as many operand bytes as its format has; so no two encodings share an
instruction. (30_encoding.md sections 1 and 6, R70, R73, R80) -/
def Obligations.DecodedBytesAreTheEncoding : Prop :=
  ∀ (t : OpcodeTable) (bytes rest : List Byte) (i : Instr), t.wellFormed = true →
    decodeWith t bytes = .ok (i, rest) →
    ∃ e, encodeWith t i = some e ∧ bytes = e ++ rest ∧ e.length = 1 + i.opcode.format.operandWidth

/-- Bytes are rejected as UnknownOpcode of their first byte exactly when that byte is not one of the 34 of R74; with two
more bytes behind, of any value, every one of the 34 decodes. There are 222 unknown bytes. The byte values are
decision D3 (log 1). (30_encoding.md section 3, R74, R76, R77) -/
def Obligations.OnlyThirtyFourBytesAreOpcodes : Prop :=
  (∀ (b : Byte) (rest : List Byte), decode (b :: rest) = .error (.unknownOpcode b) ↔
    b ∉ ([0xA9, 0xA2, 0xA0, 0xA5, 0xAD, 0xA6, 0xAE, 0xA4, 0xAC, 0x85, 0x8D, 0x86, 0x8E, 0x84, 0x8C, 0x64, 0xE8, 0xC8,
          0xE6, 0x69, 0xC9, 0xF0, 0xD0, 0xB0, 0x90, 0x4C, 0x20, 0x60, 0xAA, 0xA8, 0x8A, 0x98, 0xBA, 0x9A] : List Byte)) ∧
  (∀ (b b1 b2 : Byte), (∃ i rest, decode [b, b1, b2] = .ok (i, rest)) ∨ decode [b, b1, b2] = .error (.unknownOpcode b)) ∧
  ((List.range 256).filter (fun n => (lookupOpcode opcodeTable (BitVec.ofNat 8 n)).isNone)).length = 222

/-- In a machine with the table of R74 and room for the fetch increment: if an instruction's bits decode to it, then with
its three bytes laid at PC the next step is its execute phase. Laying them changes memory at PC, PC + 1 and PC + 2
only, and makes the core ready to fetch. The host's way of placing a program is the model's own (log 11). (41_dispatcher.md section 1, 70_reset_and_hazards.md section 2, R264) -/
def Obligations.PlacedWordRunsNext : Prop :=
  ∀ (s : State) (nbits w : Nat) (i : Instr), s.cfg.opcodes = opcodeTable → s.roomFor 1 →
    decodeTableWord nbits w = some i →
    step (s.withFetchWord nbits w) = exec i (s.withFetchWord nbits w).entered ∧
    (∀ b : Addr, b ≠ s.pc → b ≠ s.pc + 1 → b ≠ s.pc + 2 → (s.withFetchWord nbits w).memRead b = s.memRead b) ∧
    s.withFetchWord nbits w =
      { s with mem := (s.withFetchWord nbits w).mem, run := true, fault := none, phase := .fetch }

/-- For every state with room and every operand byte: the register takes the byte, PC ends past it, and every other
register, every flag, memory and the call stack are unchanged. That LDX and LDY write no flag is decision D7 (log 13). (42_load_store.md section 2, R130) -/
def Obligations.ImmediateLoadsTakeTheOperand : Prop :=
  ∀ (s : State) (imm8 : Byte), s.roomFor 1 →
    exec (.ldaImm imm8) s = .next { s.after 1 with a := imm8 } ∧
    exec (.ldxImm imm8) s = .next { s.after 1 with x := imm8 } ∧
    exec (.ldyImm imm8) s = .next { s.after 1 with y := imm8 }

/-- For every state with room and every operand: the zero-page forms load the byte at 0x0000 + zp8, the absolute forms the
byte at addr_hi:addr_lo; PC ends past the operand; every other register, every flag, memory and the call stack are
unchanged. No flag: decision D7 (log 13); byte order: D12 (log 16). (42_load_store.md section 3, R130) -/
def Obligations.MemoryLoadsTakeTheByte : Prop :=
  ∀ (s : State) (zp8 lo hi : Byte),
    (s.roomFor 1 →
      exec (.ldaZp zp8) s = .next { s.after 1 with a := s.memRead (zext16 zp8) } ∧
      exec (.ldxZp zp8) s = .next { s.after 1 with x := s.memRead (zext16 zp8) } ∧
      exec (.ldyZp zp8) s = .next { s.after 1 with y := s.memRead (zext16 zp8) }) ∧
    (s.roomFor 2 →
      exec (.ldaAbs lo hi) s = .next { s.after 2 with a := s.memRead (hiLo hi lo) } ∧
      exec (.ldxAbs lo hi) s = .next { s.after 2 with x := s.memRead (hiLo hi lo) } ∧
      exec (.ldyAbs lo hi) s = .next { s.after 2 with y := s.memRead (hiLo hi lo) })

/-- For every state with room and every operand: STA, STX and STY write A, X or Y, and STZ writes 0x00, at 0x0000 + zp8 or
at addr_hi:addr_lo; PC ends past the operand; registers, flags and the call stack are unchanged. No flag: decision D7
(log 13); byte order: D12 (log 16); the form of STZ: D5 (log 15). (42_load_store.md sections 4 and 5, R130) -/
def Obligations.StoresWriteTheRegister : Prop :=
  ∀ (s : State) (zp8 lo hi : Byte),
    (s.roomFor 1 →
      exec (.staZp zp8) s = .next ((s.after 1).memWrite (zext16 zp8) s.a) ∧
      exec (.stxZp zp8) s = .next ((s.after 1).memWrite (zext16 zp8) s.x) ∧
      exec (.styZp zp8) s = .next ((s.after 1).memWrite (zext16 zp8) s.y) ∧
      exec (.stzZp zp8) s = .next ((s.after 1).memWrite (zext16 zp8) 0x00)) ∧
    (s.roomFor 2 →
      exec (.staAbs lo hi) s = .next ((s.after 2).memWrite (hiLo hi lo) s.a) ∧
      exec (.stxAbs lo hi) s = .next ((s.after 2).memWrite (hiLo hi lo) s.x) ∧
      exec (.styAbs lo hi) s = .next ((s.after 2).memWrite (hiLo hi lo) s.y))

/-- For every instruction with a store (STA, STX, STY, STZ, INC), for the address its meaning computes: when it answers a
next state, the byte there is the register's, zero, or the old byte plus one, and every other address reads as before. (20_memory.md section 4, 42_load_store.md sections 4 and 5, 43_arith.md section 1, R61) -/
def Obligations.StoringFormsWriteOneByte : Prop :=
  ∀ (i : Instr) (s t : State) (ea : Addr), storeAddress i s = some ea → exec i s = .next t →
    (∀ b : Addr, b ≠ ea → t.memRead b = s.memRead b) ∧
    t.memRead ea =
      match i with
      | .staZp _ | .staAbs _ _ => s.a
      | .stxZp _ | .stxAbs _ _ => s.x
      | .styZp _ | .styAbs _ _ => s.y
      | .incZp _ => s.memRead ea + 1
      | _ => 0x00

/-- For every instruction that is not STA, STX, STY, STZ or INC, traps, waits and fatal conditions included: when it
answers a next state, every address reads as before. JSR and RTS are among them: return addresses are never in memory. (20_memory.md section 4, R61) -/
def Obligations.OtherFormsKeepMemory : Prop :=
  ∀ (i : Instr) (s t : State), storeAddress i s = none → exec i s = .next t →
    ∀ b : Addr, t.memRead b = s.memRead b

/-- For every instruction with a store (STA, STX, STY, STZ, INC, in every form) and whatever address it stores to: if it
completes in a running core with room for the next fetch increment, the next step decodes the bytes at its PC with the
stored byte standing at the stored address and every other byte as it was before the store. It runs the instruction
they decode to, of whatever length; where the first of them is in no row, it halts with UnknownOpcode of that byte, PC
one past it. So a store over the next opcode, or over one of its operand bytes, is seen with no delay. (20_memory.md section 5, R65) -/
def Obligations.StoreIsSeenByNextFetch : Prop :=
  ∀ (i : Instr) (s t : State) (ea : Addr), storeAddress i s = some ea → exec i s = .next t → s.run = true → t.roomFor 1 →
    (∀ (j : Instr) (rest : List Byte),
      decodeWith s.cfg.opcodes
        [byteAfterStore i s ea t.pc, byteAfterStore i s ea (t.pc + 1), byteAfterStore i s ea (t.pc + 1 + 1)] = .ok (j, rest) →
      step t = exec j t.entered) ∧
    (lookupOpcode s.cfg.opcodes (byteAfterStore i s ea t.pc) = none →
      step t = .next { t with
        pc := t.pc + 1, run := false, fault := some (.unknownOpcode (byteAfterStore i s ea t.pc)), phase := .halted })

/-- For every state and operand (with room where there is an operand): INX and INY add one to their register, INC zp adds
one to the byte at 0x0000 + zp8, ADC adds its operand to A, all modulo 256; no flag is read or written, and nothing
else changes. That Zero is not written is decision D7 (log 13). (43_arith.md sections 1 and 2) -/
def Obligations.IncrementsAndAddWrap : Prop :=
  ∀ (s : State) (b : Byte),
    exec .inx s = .next { s.after 0 with x := BitVec.ofNat 8 ((s.x.toNat + 1) % 256) } ∧
    exec .iny s = .next { s.after 0 with y := BitVec.ofNat 8 ((s.y.toNat + 1) % 256) } ∧
    (s.roomFor 1 →
      exec (.incZp b) s =
        .next ((s.after 1).memWrite (zext16 b) (BitVec.ofNat 8 (((s.memRead (zext16 b)).toNat + 1) % 256))) ∧
      exec (.adcImm b) s = .next { s.after 1 with a := BitVec.ofNat 8 ((s.a.toNat + b.toNat) % 256) })

/-- For every state with room and every operand: CMP completes with Zero set if and only if A equals the operand, Carry
and bits 7:2 of P kept, and every other register, memory and the call stack unchanged. (43_arith.md section 3, 10_state.md section 3) -/
def Obligations.CompareWritesZeroAlone : Prop :=
  ∀ (s : State) (m : Byte), s.roomFor 1 →
    ∃ p' : Byte, exec (.cmpImm m) s = .next { s.after 1 with p := p' } ∧
      (zeroFlag p' = true ↔ s.a = m) ∧ carryFlag p' = carryFlag s.p ∧
      ∀ k : Nat, 1 ≤ k → p'.getLsbD k = s.p.getLsbD k

/-- For every instruction but CMP, host traps and fatal conditions included: when it answers a next state, P is unchanged.
Of the instructions the source is silent on this is decision D7 (log 13). (10_state.md sections 3 and 7, R26) -/
def Obligations.OnlyCompareWritesStatus : Prop :=
  ∀ (i : Instr) (s t : State), i.opcode ≠ .cmpImm → exec i s = .next t → t.p = s.p

/-- No execute phase and no step changes Carry; it is clear at reset, hence in every state that steps reach from a state
with Carry clear; with room for the operand, BCS completes past its operand when Carry is clear and BCC when it is
set; with room for the target as well (both always under TOP_POLICY = wrap), BCC completes at its target when Carry is
clear and BCS when it is set. So in a run from the reset state every BCC that completes is taken and no BCS is. Kept
as observed, the source doubts the intent (U8 (a), log 29); the target's base is the parameter BRANCH_BASE (decision
D8, log 3), the room is TOP_POLICY (decision D15, log 4). (10_state.md section 3, 44_branch_jump.md section 1, 93_implementation_defined.md U8, R27, R170, R173, R174) -/
def Obligations.CarryIsNeverComputed : Prop :=
  (∀ (i : Instr) (s t : State), exec i s = .next t → carryFlag t.p = carryFlag s.p) ∧
  (∀ (s t : State), step s = .next t → carryFlag t.p = carryFlag s.p) ∧
  carryFlag State.reset.p = false ∧
  (∀ (k : Nat) (s t : State), carryFlag s.p = false → Host.Core.run Sys2Proof.core k s = .next t → carryFlag t.p = false) ∧
  ∀ (s : State) (off8 : Byte), s.roomFor 1 →
    (carryFlag s.p = false → exec (.bcs off8) s = .next (s.after 1)) ∧
    (carryFlag s.p = true → exec (.bcc off8) s = .next (s.after 1)) ∧
    ((s.cfg.topPolicy = .fault → (branchBaseAddr s.cfg.branchBase s.pc (s.pc + 1)).toNat + off8.toNat ≤ 0xFFFF) →
      (carryFlag s.p = false → exec (.bcc off8) s =
        .next { s.after 1 with pc := branchBaseAddr s.cfg.branchBase s.pc (s.pc + 1) + zext16 off8 }) ∧
      (carryFlag s.p = true → exec (.bcs off8) s =
        .next { s.after 1 with pc := branchBaseAddr s.cfg.branchBase s.pc (s.pc + 1) + zext16 off8 }))

/-- Changing any of bits 7:2 of P before an execute phase changes exactly those bits after it and nothing else, so no
instruction reads them; and an execute phase that answers a next state leaves each of them as it was, so no
instruction writes them. That these bits are plain storage is decision D23 (log 22). (10_state.md section 3, R28) -/
def Obligations.UnusedStatusBitsAreInert : Prop :=
  (∀ (i : Instr) (s : State) (m : Byte), m &&& 0x03 = 0x00 →
    exec i { s with p := s.p ^^^ m } = mapNext (fun t => { t with p := t.p ^^^ m }) (exec i s)) ∧
  ∀ (i : Instr) (s t : State), exec i s = .next t → ∀ k : Nat, 2 ≤ k → t.p.getLsbD k = s.p.getLsbD k

/-- For every state and offset: with room for the operand, a branch whose condition fails completes with PC past its
operand; one whose condition holds, with room for the target, completes with PC at the base plus the zero-extended
offset. The conditions are Zero set (BEQ), Zero clear (BNE), Carry set (BCS), Carry clear (BCC). No register, flag or
memory changes. The base is the parameter BRANCH_BASE, by decision D8 the next instruction (log 3). (44_branch_jump.md section 1, R170) -/
def Obligations.BranchesGoForwardOrFallThrough : Prop :=
  ∀ (s : State) (off8 : Byte) (i : Instr) (cond : Bool), s.roomFor 1 →
    (i, cond) ∈ [(Instr.beq off8, zeroFlag s.p), (Instr.bne off8, !zeroFlag s.p),
                 (Instr.bcs off8, carryFlag s.p), (Instr.bcc off8, !carryFlag s.p)] →
    (cond = false → exec i s = .next (s.after 1)) ∧
    (cond = true → s.cfg.branchBase = .nextInstruction → (s.after 1).roomFor off8.toNat →
      exec i s = .next { s.after 1 with pc := s.pc + 1 + zext16 off8 }) ∧
    (cond = true → s.cfg.branchBase = .operandByte → s.roomFor off8.toNat →
      exec i s = .next { s.after 1 with pc := s.pc + zext16 off8 })

/-- For every state with room and every operand, trap addresses included: JMP completes with PC = addr_hi * 256 + addr_lo
and everything else unchanged, OUT, IN and the call stack among it. Byte order: decision D12 (log 16). (44_branch_jump.md section 2, 47_host_io.md section 3) -/
def Obligations.JumpGoesToItsOperand : Prop :=
  ∀ (s : State) (lo hi : Byte), s.roomFor 2 →
    exec (.jmpAbs lo hi) s = .next { s.after 2 with pc := BitVec.ofNat 16 (hi.toNat * 256 + lo.toNat) }

/-- With CSP not 0, push answers a state whose slot CSP holds the address, every other slot unchanged, CSP one less,
everything else unchanged; with CSP = 0 it raises StackOverflow, writes no slot and leaves CSP at 0. (R180) -/
def Obligations.PushWritesSlotThenMovesPointer : Prop :=
  ∀ (s : State) (ret : Addr),
    (s.csp ≠ 0 → ∃ t, push ret s = .ok () t ∧ slotAt t.cs s.csp = ret ∧
      (∀ k : Byte, k ≠ s.csp → slotAt t.cs k = slotAt s.cs k) ∧ t.csp.toNat = s.csp.toNat - 1 ∧
      t = { s with cs := t.cs, csp := t.csp }) ∧
    (s.csp = 0 → push ret s = .halt (raise .stackOverflow s) ∧
      (raise .stackOverflow s).cs = s.cs ∧ (raise .stackOverflow s).csp = 0)

/-- With CSP not 255, pop answers the address in slot CSP + 1 and a state with CSP one more and everything else, the slots
included, unchanged; with CSP = 255 it raises StackUnderflow and leaves CSP at 255 and the slots unread and unchanged. (R181) -/
def Obligations.PopMovesPointerThenReadsSlot : Prop :=
  ∀ s : State,
    (s.csp ≠ 255 → ∃ t, pop s = .ok (slotAt s.cs (s.csp + 1)) t ∧ t.csp.toNat = s.csp.toNat + 1 ∧ t = { s with csp := t.csp }) ∧
    (s.csp = 255 → pop s = .halt (raise .stackUnderflow s) ∧
      (raise .stackUnderflow s).cs = s.cs ∧ (raise .stackUnderflow s).csp = 255)

/-- From every state, a sequence of at most CSP addresses can be pushed, as many pops then give it back reversed with CSP
where it was; a longer sequence meets a fatal push. From an empty stack the bound is 255, from one holding k addresses
it is 255 - k. (R184) -/
def Obligations.PushesThenPopsReverse : Prop :=
  ∀ (s : State) (xs : List Addr),
    (xs.length ≤ s.csp.toNat →
      ∃ t u, pushAll s xs = some t ∧ popAll t xs.length = some (xs.reverse, u) ∧ u.csp = s.csp) ∧
    (s.csp.toNat < xs.length → pushAll s xs = none)

/-- For every state with room and CSP not 0 and every target that is no trap address: JSR completes with slot CSP holding
the address past its operand (pc0 + 3), CSP one less, PC at the target, and every other register, P, SP and memory
unchanged. (45_call_return.md section 2) -/
def Obligations.CallPushesNextInstructionAddress : Prop :=
  ∀ (s : State) (lo hi : Byte), s.roomFor 2 → s.csp ≠ 0 → isTrap s.cfg (hiLo hi lo) = false →
    exec (.jsrAbs lo hi) s =
      .next { s.after 2 with pc := hiLo hi lo, cs := setSlot s.cs s.csp (s.pc + 2), csp := s.csp - 1 }

/-- For every state with room and CSP = 0 and every target: JSR halts the core with StackOverflow recorded, PC past the
operand, no slot written, no host action, everything else unchanged. The state at the halt is decision D17 (log 17). (60_exceptions.md section 1, R233) -/
def Obligations.CallOnFullStackOverflows : Prop :=
  ∀ (s : State) (lo hi : Byte), s.roomFor 2 → s.csp = 0 →
    exec (.jsrAbs lo hi) s =
      .next { s with pc := s.pc + 2, run := false, fault := some .stackOverflow, phase := .halted }

/-- With CSP not 255, RTS completes with PC the address in slot CSP + 1, CSP one more, everything else unchanged. With CSP
= 255 it halts the core with StackUnderflow recorded and PC past the opcode; that state at the halt is decision D17
(log 17). (45_call_return.md section 3) -/
def Obligations.ReturnUsesPoppedAddress : Prop :=
  ∀ s : State,
    (s.csp ≠ 255 → exec .rts s = .next { s.after 0 with pc := slotAt s.cs (s.csp + 1), csp := s.csp + 1 }) ∧
    (s.csp = 255 → exec .rts s = .next { s with run := false, fault := some .stackUnderflow, phase := .halted })

/-- If JSR to an ordinary target leaves the core running, then RTS in any state with that call stack, whatever its
registers, SP, flags and memory, completes with PC at the byte after the call, the call-stack pointer where it was
before the call, and nothing else changed. (45_call_return.md sections 2 to 4, R185) -/
def Obligations.ReturnUndoesCall : Prop :=
  ∀ (s t u : State) (lo hi : Byte), exec (.jsrAbs lo hi) s = .next t → s.run = true → t.run = true →
    isTrap s.cfg (hiLo hi lo) = false → u.cs = t.cs → u.csp = t.csp →
    exec .rts u = .next { u.after 0 with pc := s.pc + 2, csp := s.csp }

/-- Read slots CSP + 1 to 255 as a list, most recent call first. Every step that answers a next state leaves that list as
it was, or puts the address three past the step's PC in front of it, or removes its first address, which is then the
new PC; and it never holds more than 255 addresses. (45_call_return.md section 4, 10_state.md section 5, R32) -/
def Obligations.CallStackIsAList : Prop :=
  (∀ s t : State, step s = .next t →
    t.outstanding = s.outstanding ∨ t.outstanding = (s.pc + 3) :: s.outstanding ∨ s.outstanding = t.pc :: t.outstanding) ∧
  ∀ s : State, s.outstanding.length = 255 - s.csp.toNat

/-- For every step that answers a next state: slot 0 keeps its content, and so does every slot above CSP. (10_state.md section 5, R32) -/
def Obligations.LiveSlotsAreNeverOverwritten : Prop :=
  ∀ s t : State, step s = .next t →
    slotAt t.cs 0 = slotAt s.cs 0 ∧ ∀ k : Byte, s.csp < k → slotAt t.cs k = slotAt s.cs k

/-- Two states that differ at most in slots holding no outstanding return address take steps with the same outcome: the
same fault, or next states that differ at most so again. So no run can tell which value a slot has at reset, which is
the model's choice (log 5). (10_state.md section 5, 93_implementation_defined.md U4, R32) -/
def Obligations.StaleSlotsAreUnobservable : Prop :=
  ∀ s t : State, sameButStaleSlots s t → sameOutcomeButStaleSlots (step s) (step t)

/-- For every instruction but TSX and TXS, calls and returns included, giving SP another value before its execute phase
gives it that value after it and changes nothing else. That SP and the call-stack pointer are two registers is
decision D10 (log 14). (10_state.md section 2, 45_call_return.md section 4, R24, R188) -/
def Obligations.StackPointerIsDataOnly : Prop :=
  ∀ (i : Instr) (s : State) (v : Byte), i ≠ .tsx → i ≠ .txs →
    exec i { s with sp := v } = mapNext (fun t => { t with sp := v }) (exec i s)

/-- For every state: TAX, TAY, TXA, TYA, TSX and TXS copy all 8 bits, end past the opcode, and leave every other register,
every flag, memory, CS and CSP unchanged. The six pairs are decision D6 (log 15), that they write no flag D7 (log 13). (46_transfer.md) -/
def Obligations.TransfersCopyOneRegister : Prop :=
  ∀ s : State,
    exec .tax s = .next { s.after 0 with x := s.a } ∧ exec .tay s = .next { s.after 0 with y := s.a } ∧
    exec .txa s = .next { s.after 0 with a := s.x } ∧ exec .tya s = .next { s.after 0 with a := s.y } ∧
    exec .tsx s = .next { s.after 0 with x := s.sp } ∧ exec .txs s = .next { s.after 0 with sp := s.x }

/-- With room for the operand, the resolver consumes one operand byte for the zero-page-indexed modes and forms (zp8 +
index) mod 256, and two for the absolute-indexed modes and forms (addr_hi * 256 + addr_lo + index) mod 65536; it
changes PC and nothing else. That addr_lo is the first operand byte is decision D12 (R54, log 16). No operation of the
opcode table uses one of these modes: that is decision D4 (R99, log 15). (40_resolver.md section 2, 20_memory.md section 2, R94, R95, R96, R97, R99, R54) -/
def Obligations.IndexedModesMaskOrWrap : Prop :=
  (∀ s : State,
    (s.roomFor 1 →
      resolve .zeroPageX s = .ok (BitVec.ofNat 16 (((s.memRead s.pc).toNat + s.x.toNat) % 256)) { s with pc := s.pc + 1 } ∧
      resolve .zeroPageY s = .ok (BitVec.ofNat 16 (((s.memRead s.pc).toNat + s.y.toNat) % 256)) { s with pc := s.pc + 1 }) ∧
    (s.roomFor 2 →
      resolve .absoluteX s =
        .ok (BitVec.ofNat 16 (((s.memRead (s.pc + 1)).toNat * 256 + (s.memRead s.pc).toNat + s.x.toNat) % 65536))
          { s with pc := s.pc + 2 } ∧
      resolve .absoluteY s =
        .ok (BitVec.ofNat 16 (((s.memRead (s.pc + 1)).toNat * 256 + (s.memRead s.pc).toNat + s.y.toNat) % 65536))
          { s with pc := s.pc + 2 })) ∧
  ∀ op : Opcode, op.mode = none ∨ op.mode = some .immediate ∨ op.mode = some .zeroPage ∨ op.mode = some .absolute

/-- Immediate consumes nothing and gives the address of the immediate byte (decision D13, log 24); ZeroPage consumes one
byte and gives 0x0000 + zp8; Absolute consumes two and gives addr_hi * 256 + addr_lo (byte order: D12, log 16). The
resolver changes PC and nothing else. (40_resolver.md section 2, R90) -/
def Obligations.DirectModesFormTheAddress : Prop :=
  ∀ s : State,
    resolve .immediate s = .ok s.pc s ∧
    (s.roomFor 1 →
      resolve .zeroPage s = .ok (BitVec.ofNat 16 (s.memRead s.pc).toNat) { s with pc := s.pc + 1 }) ∧
    (s.roomFor 2 →
      resolve .absolute s =
        .ok (BitVec.ofNat 16 ((s.memRead (s.pc + 1)).toNat * 256 + (s.memRead s.pc).toNat)) { s with pc := s.pc + 2 })

/-- Selector 7 halts the core with InvalidAddressingMode(7) recorded, no operand consumed, PC and everything else as on
entry; selectors 0 to 6 are the seven modes in the source's order. The numbering is decision D14, keeping the
condition D28 (log 20). (40_resolver.md section 3, 30_encoding.md section 4, R98, R232) -/
def Obligations.InvalidSelectorIsFatal : Prop :=
  (∀ (s : State), resolveSelector 7 s =
    .halt { s with run := false, fault := some (.invalidAddressingMode 7), phase := .halted }) ∧
  (∀ (s : State) (k : Fin 7), ∃ m : Mode,
    [Mode.immediate, .zeroPage, .absolute, .zeroPageX, .absoluteX, .zeroPageY, .absoluteY][k.val]? = some m ∧
    resolveSelector (BitVec.ofNat 3 k.val) s = resolve m s)

/-- For every state with room and CSP not 0: JSR to the output trap appends A to OUT, and JSR to the input trap, when the
host has a character ready, takes the first byte of IN into A; each then has PC past the call, the return address in
slot CSP, CSP as it was, and every other register, P and memory unchanged. Exactly one character is transferred. That
slot CSP keeps the return address is decision D27 (log 18; U4 lets no claim of the spec speak of it), that input
leaves P alone is D7 (log 13), which addresses are the traps D9 (log 2). (47_host_io.md section 2, R211, R212, R213, R214) -/
def Obligations.TrappedCallTransfersOneCharacter : Prop :=
  ∀ (s : State) (lo hi : Byte), s.roomFor 2 → s.csp ≠ 0 →
    (hiLo hi lo = s.cfg.trapOut →
      exec (.jsrAbs lo hi) s =
        .next { s.after 2 with output := s.output ++ [s.a], cs := setSlot s.cs s.csp (s.pc + 2) }) ∧
    (hiLo hi lo = s.cfg.trapIn → s.cfg.trapIn ≠ s.cfg.trapOut → ∀ (b : Byte) (rest : List Byte), s.input = b :: rest →
      exec (.jsrAbs lo hi) s =
        .next { s.after 2 with a := b, input := rest, cs := setSlot s.cs s.csp (s.pc + 2) })

/-- When the instruction at PC is JSR TRAP_IN, CSP is not 0, there is room, and IN is empty: a step changes nothing but
the phase, to IoWait; so does every further step; and once the host delivers a byte, the next step completes the call
with that byte in A. That the wait is a step of the model is log 7; that an exhausted IN is a stall is decision D20
(log 21); that the completed call leaves its return address in slot CSP is decision D27 (R214, log 18), and P as it
was is D7 (R213, log 13). (47_host_io.md sections 2 and 4, 41_dispatcher.md section 2, R117, R213, R214, R218) -/
def Obligations.InputTrapWaitsForCharacter : Prop :=
  ∀ (s : State) (lo hi b : Byte) (rest : List Byte), s.run = true → s.roomFor 3 → s.csp ≠ 0 → s.input = [] →
    decodeWith s.cfg.opcodes s.bytesAtPc = .ok (.jsrAbs lo hi, rest) →
    hiLo hi lo = s.cfg.trapIn → s.cfg.trapIn ≠ s.cfg.trapOut →
    step s = .next { s with phase := .ioWait } ∧
    step { s with phase := .ioWait } = .next { s with phase := .ioWait } ∧
    step (deliver b { s with phase := .ioWait }) =
      .next { s with a := b, pc := s.pc + 3, cs := setSlot s.cs s.csp (s.pc + 3), phase := .fetch }

/-- For every instruction that answers a next state: OUT and IN are unchanged; or it is a call to TRAP_OUT and OUT has
gained A at its end; or it is a call to TRAP_IN and IN has lost its first byte to A. A jump, a branch, a return, a
load or a store at a trap address does no host I/O. (47_host_io.md sections 2 and 3, R215) -/
def Obligations.OnlyTrappedCallsDoHostIo : Prop :=
  ∀ (i : Instr) (s t : State), exec i s = .next t →
    (t.output = s.output ∧ t.input = s.input) ∨
    (callTarget i = some s.cfg.trapOut ∧ t.output = s.output ++ [s.a] ∧ t.input = s.input) ∨
    (callTarget i = some s.cfg.trapIn ∧ t.output = s.output ∧ s.input = t.a :: t.input)

/-- For every number of steps that answer a next state: OUT at the start is a prefix of OUT at the end, and IN at the end
is a suffix of IN at the start. No step of any outcome withdraws a byte handed over or puts one back. (47_host_io.md section 4, R219) -/
def Obligations.OutputIsNeverWithdrawn : Prop :=
  ∀ (k : Nat) (s t : State), Host.Core.run Sys2Proof.core k s = .next t → s.output <+: t.output ∧ t.input <:+ s.input

/-- When the instruction at PC is a call to a trap address outside the call's own three bytes, writing any byte at the
trap address before the step changes that byte after it and nothing else: the code there is not fetched. (47_host_io.md section 3, R216) -/
def Obligations.TrapAddressByteIsNotFetched : Prop :=
  ∀ (s : State) (lo hi v : Byte) (rest : List Byte),
    decodeWith s.cfg.opcodes s.bytesAtPc = .ok (.jsrAbs lo hi, rest) → isTrap s.cfg (hiLo hi lo) = true →
    hiLo hi lo ≠ s.pc → hiLo hi lo ≠ s.pc + 1 → hiLo hi lo ≠ s.pc + 2 →
    step (s.memWrite (hiLo hi lo) v) = mapNext (fun t => t.memWrite (hiLo hi lo) v) (step s)

/-- In a running core with room for the fetch increment, when the byte at PC is in no row of the machine's table (by the
table of R74, none of its 34 bytes): the step halts the core with UnknownOpcode of that byte recorded and PC one past
it, so the byte's address is PC - 1, and nothing else changes. (R231) -/
def Obligations.UnknownOpcodeHaltsPastTheByte : Prop :=
  ∀ s : State, s.run = true → s.roomFor 1 → lookupOpcode s.cfg.opcodes (s.memRead s.pc) = none →
    step s = .next { s with pc := s.pc + 1, run := false, fault := some (.unknownOpcode (s.memRead s.pc)), phase := .halted }

/-- In a state whose run latch is 0 no step answers a next state, now or after any number of steps asked; raising a fatal
condition changes the fault record, the run latch and the phase and nothing else, so nothing is written back at a
halt; and the reset input sets the core running. That the outcome is a fault that shows the report is the model's
choice (log 6); what a raise writes and that all else is kept are the spec's decisions D16 and D17 (R235; logs 28 and
17); the reset input is D18 (R260, log 9). (41_dispatcher.md section 2, 60_exceptions.md section 2, 70_reset_and_hazards.md section 1, R118, R235, R260) -/
def Obligations.HaltedIsAbsorbing : Prop :=
  (∀ s : State, s.run = false → step s = .fault (.halted s.fault) ∧
    ∀ k : Nat, Host.Core.run Sys2Proof.core (k + 1) s = .fault (.halted s.fault)) ∧
  (∀ (f : Fatal) (s : State), raise f s = { s with run := false, fault := some f, phase := .halted }) ∧
  ∀ s : State, (resetInput s).run = true

/-- When a step takes a running core to a halted state, one of three holds: the byte at PC is in no row and UnknownOpcode
of it is recorded; the instruction is JSR, CSP is 0 and StackOverflow is recorded; the instruction is RTS, CSP is 255
and StackUnderflow is recorded. PC is pc0 + 1, pc0 + 3 or pc0 + 1 (decision D17, log 17). No other instruction can end
a run. (60_exceptions.md section 1, 41_dispatcher.md section 2, R230, R238) -/
def Obligations.FatalConditionsHaveTheirCauses : Prop :=
  ∀ s t : State, s.run = true → step s = .next t → t.run = false →
    (lookupOpcode s.cfg.opcodes (s.memRead s.pc) = none ∧ t.fault = some (.unknownOpcode (s.memRead s.pc)) ∧
      t.pc = s.pc + 1) ∨
    (∃ lo hi rest, decodeWith s.cfg.opcodes s.bytesAtPc = .ok (.jsrAbs lo hi, rest) ∧ s.csp = 0 ∧
      t.fault = some .stackOverflow ∧ t.pc = s.pc + 3) ∨
    (∃ rest, decodeWith s.cfg.opcodes s.bytesAtPc = .ok (.rts, rest) ∧ s.csp = 255 ∧
      t.fault = some .stackUnderflow ∧ t.pc = s.pc + 1)

/-- In every running state of a machine whose TOP_POLICY is wrap (the default, decision D15, log 4), a step answers a next
state, whatever the registers, the memory, the call stack and the table hold; and no step of any machine is refused.
The spec says that the loop does not end by itself (R116); that a step which raises a fatal condition answers a next
state, the halted one, is the model's choice (log 6), and so is that a blocked JSR TRAP_IN answers one that differs in
the phase alone, where R117 speaks of a step that is not enabled (log 7). (41_dispatcher.md section 2, 60_exceptions.md section 2, R116, R117, R235) -/
def Obligations.RunningCoreAlwaysSteps : Prop :=
  (∀ s : State, s.run = true → s.cfg.topPolicy = .wrap → ∃ t, step s = .next t) ∧
  ∀ (s : State) (r : Refusal), step s ≠ .refused r

/-- With TOP_POLICY = fault, a running core stops with the model's own fault when pc0 is 0xFFFF or when the instruction at
PC does not end below 0x10000, and when a taken branch's target would pass 0xFFFF; with TOP_POLICY = wrap no step
stops so. A step that stops so has pc0 plus the length above 0xFFFF, or is a branch whose condition holds and whose
offset, added to its own base, passes 0xFFFF. The policy is decision D15 (log 4), the base BRANCH_BASE is D8 (log 3). (20_memory.md section 5, 93_implementation_defined.md U1, R63) -/
def Obligations.TopPolicyFaultStopsPastTop : Prop :=
  (∀ s : State, s.run = true → s.cfg.topPolicy = .fault → s.pc = 0xFFFF → step s = .fault .pastTop) ∧
  (∀ (s : State) (i : Instr) (rest : List Byte), s.run = true → s.cfg.topPolicy = .fault →
    decodeWith s.cfg.opcodes s.bytesAtPc = .ok (i, rest) →
    0xFFFF < s.pc.toNat + 1 + i.opcode.format.operandWidth → step s = .fault .pastTop) ∧
  (∀ (s : State) (off8 : Byte) (i : Instr), s.cfg.topPolicy = .fault →
    (i, true) ∈ [(Instr.beq off8, zeroFlag s.p), (Instr.bne off8, !zeroFlag s.p),
                 (Instr.bcs off8, carryFlag s.p), (Instr.bcc off8, !carryFlag s.p)] →
    (s.cfg.branchBase = .nextInstruction → 0xFFFF < s.pc.toNat + 1 + off8.toNat → exec i s = .fault .pastTop) ∧
    (s.cfg.branchBase = .operandByte → 0xFFFF < s.pc.toNat + off8.toNat → exec i s = .fault .pastTop)) ∧
  (∀ s : State, step s = .fault .pastTop → s.cfg.topPolicy = .fault ∧
    (s.pc = 0xFFFF ∨ ∃ i rest, decodeWith s.cfg.opcodes s.bytesAtPc = .ok (i, rest) ∧
      (0xFFFF < s.pc.toNat + 1 + i.opcode.format.operandWidth ∨
        ∃ off8, (i, true) ∈ [(Instr.beq off8, zeroFlag s.p), (Instr.bne off8, !zeroFlag s.p),
                             (Instr.bcs off8, carryFlag s.p), (Instr.bcc off8, !carryFlag s.p)] ∧
          ((s.cfg.branchBase = .nextInstruction ∧ 0xFFFF < s.pc.toNat + 2 + off8.toNat) ∨
            (s.cfg.branchBase = .operandByte ∧ 0xFFFF < s.pc.toNat + 1 + off8.toNat)))))

/-- For every running core and every decoded instruction that does not set PC itself, a step that answers a next state
ends with PC = pc0 + 1 + operand width. Sums past 0xFFFF wrap (decision D15, log 4). (41_dispatcher.md section 2, R115) -/
def Obligations.ProgramCounterLaw : Prop :=
  ∀ (s t : State) (i : Instr) (rest : List Byte), s.run = true →
    decodeWith s.cfg.opcodes s.bytesAtPc = .ok (i, rest) → setsPc i = false → step s = .next t →
    t.pc = s.pc + 1 + BitVec.ofNat 16 i.opcode.format.operandWidth

/-- For every instruction that answers a next state: A is unchanged unless it is LDA, ADC, TXA, TYA or a call to the input
trap; X unless LDX, INX, TAX or TSX; Y unless LDY, INY or TAY; SP unless TXS; the slots unless JSR; CSP, the run latch
and the fault record unless JSR or RTS; the parameters always. (10_state.md section 7, R37) -/
def Obligations.RegistersChangeOnlyByTheirWriters : Prop :=
  ∀ (i : Instr) (s t : State), exec i s = .next t →
    (writesA i = false → callTarget i ≠ some s.cfg.trapIn → t.a = s.a) ∧
    (writesX i = false → t.x = s.x) ∧ (writesY i = false → t.y = s.y) ∧ (i ≠ .txs → t.sp = s.sp) ∧
    (callTarget i = none → t.cs = s.cs) ∧
    (usesCallStack i = false → t.csp = s.csp ∧ t.run = s.run ∧ t.fault = s.fault) ∧
    t.cfg = s.cfg
end

