-- ==== Sys2Proof/Laws/State.lean ====
section
/-! SUPPORT. One lemma per field per update of the state, so that no proof unfolds a record update. -/

namespace Sys2Proof.Machine

@[simp] theorem State.setA_a (s : State) (v : Byte) : (s.setA v).a = v := rfl
@[simp] theorem State.setA_x (s : State) (v : Byte) : (s.setA v).x = s.x := rfl
@[simp] theorem State.setA_y (s : State) (v : Byte) : (s.setA v).y = s.y := rfl
@[simp] theorem State.setA_sp (s : State) (v : Byte) : (s.setA v).sp = s.sp := rfl
@[simp] theorem State.setA_p (s : State) (v : Byte) : (s.setA v).p = s.p := rfl
@[simp] theorem State.setA_pc (s : State) (v : Byte) : (s.setA v).pc = s.pc := rfl
@[simp] theorem State.setA_mem (s : State) (v : Byte) : (s.setA v).mem = s.mem := rfl
@[simp] theorem State.setA_cs (s : State) (v : Byte) : (s.setA v).cs = s.cs := rfl
@[simp] theorem State.setA_csp (s : State) (v : Byte) : (s.setA v).csp = s.csp := rfl
@[simp] theorem State.setA_run (s : State) (v : Byte) : (s.setA v).run = s.run := rfl
@[simp] theorem State.setA_fault (s : State) (v : Byte) : (s.setA v).fault = s.fault := rfl
@[simp] theorem State.setA_phase (s : State) (v : Byte) : (s.setA v).phase = s.phase := rfl
@[simp] theorem State.setA_output (s : State) (v : Byte) : (s.setA v).output = s.output := rfl
@[simp] theorem State.setA_input (s : State) (v : Byte) : (s.setA v).input = s.input := rfl
@[simp] theorem State.setA_cfg (s : State) (v : Byte) : (s.setA v).cfg = s.cfg := rfl
@[simp] theorem State.setA_memRead (s : State) (v : Byte) (ea : Addr) : (s.setA v).memRead ea = s.memRead ea := rfl

@[simp] theorem State.setX_a (s : State) (v : Byte) : (s.setX v).a = s.a := rfl
@[simp] theorem State.setX_x (s : State) (v : Byte) : (s.setX v).x = v := rfl
@[simp] theorem State.setX_y (s : State) (v : Byte) : (s.setX v).y = s.y := rfl
@[simp] theorem State.setX_sp (s : State) (v : Byte) : (s.setX v).sp = s.sp := rfl
@[simp] theorem State.setX_p (s : State) (v : Byte) : (s.setX v).p = s.p := rfl
@[simp] theorem State.setX_pc (s : State) (v : Byte) : (s.setX v).pc = s.pc := rfl
@[simp] theorem State.setX_mem (s : State) (v : Byte) : (s.setX v).mem = s.mem := rfl
@[simp] theorem State.setX_cs (s : State) (v : Byte) : (s.setX v).cs = s.cs := rfl
@[simp] theorem State.setX_csp (s : State) (v : Byte) : (s.setX v).csp = s.csp := rfl
@[simp] theorem State.setX_run (s : State) (v : Byte) : (s.setX v).run = s.run := rfl
@[simp] theorem State.setX_fault (s : State) (v : Byte) : (s.setX v).fault = s.fault := rfl
@[simp] theorem State.setX_phase (s : State) (v : Byte) : (s.setX v).phase = s.phase := rfl
@[simp] theorem State.setX_output (s : State) (v : Byte) : (s.setX v).output = s.output := rfl
@[simp] theorem State.setX_input (s : State) (v : Byte) : (s.setX v).input = s.input := rfl
@[simp] theorem State.setX_cfg (s : State) (v : Byte) : (s.setX v).cfg = s.cfg := rfl
@[simp] theorem State.setX_memRead (s : State) (v : Byte) (ea : Addr) : (s.setX v).memRead ea = s.memRead ea := rfl

@[simp] theorem State.setY_a (s : State) (v : Byte) : (s.setY v).a = s.a := rfl
@[simp] theorem State.setY_x (s : State) (v : Byte) : (s.setY v).x = s.x := rfl
@[simp] theorem State.setY_y (s : State) (v : Byte) : (s.setY v).y = v := rfl
@[simp] theorem State.setY_sp (s : State) (v : Byte) : (s.setY v).sp = s.sp := rfl
@[simp] theorem State.setY_p (s : State) (v : Byte) : (s.setY v).p = s.p := rfl
@[simp] theorem State.setY_pc (s : State) (v : Byte) : (s.setY v).pc = s.pc := rfl
@[simp] theorem State.setY_mem (s : State) (v : Byte) : (s.setY v).mem = s.mem := rfl
@[simp] theorem State.setY_cs (s : State) (v : Byte) : (s.setY v).cs = s.cs := rfl
@[simp] theorem State.setY_csp (s : State) (v : Byte) : (s.setY v).csp = s.csp := rfl
@[simp] theorem State.setY_run (s : State) (v : Byte) : (s.setY v).run = s.run := rfl
@[simp] theorem State.setY_fault (s : State) (v : Byte) : (s.setY v).fault = s.fault := rfl
@[simp] theorem State.setY_phase (s : State) (v : Byte) : (s.setY v).phase = s.phase := rfl
@[simp] theorem State.setY_output (s : State) (v : Byte) : (s.setY v).output = s.output := rfl
@[simp] theorem State.setY_input (s : State) (v : Byte) : (s.setY v).input = s.input := rfl
@[simp] theorem State.setY_cfg (s : State) (v : Byte) : (s.setY v).cfg = s.cfg := rfl
@[simp] theorem State.setY_memRead (s : State) (v : Byte) (ea : Addr) : (s.setY v).memRead ea = s.memRead ea := rfl

@[simp] theorem State.setSp_a (s : State) (v : Byte) : (s.setSp v).a = s.a := rfl
@[simp] theorem State.setSp_x (s : State) (v : Byte) : (s.setSp v).x = s.x := rfl
@[simp] theorem State.setSp_y (s : State) (v : Byte) : (s.setSp v).y = s.y := rfl
@[simp] theorem State.setSp_sp (s : State) (v : Byte) : (s.setSp v).sp = v := rfl
@[simp] theorem State.setSp_p (s : State) (v : Byte) : (s.setSp v).p = s.p := rfl
@[simp] theorem State.setSp_pc (s : State) (v : Byte) : (s.setSp v).pc = s.pc := rfl
@[simp] theorem State.setSp_mem (s : State) (v : Byte) : (s.setSp v).mem = s.mem := rfl
@[simp] theorem State.setSp_cs (s : State) (v : Byte) : (s.setSp v).cs = s.cs := rfl
@[simp] theorem State.setSp_csp (s : State) (v : Byte) : (s.setSp v).csp = s.csp := rfl
@[simp] theorem State.setSp_run (s : State) (v : Byte) : (s.setSp v).run = s.run := rfl
@[simp] theorem State.setSp_fault (s : State) (v : Byte) : (s.setSp v).fault = s.fault := rfl
@[simp] theorem State.setSp_phase (s : State) (v : Byte) : (s.setSp v).phase = s.phase := rfl
@[simp] theorem State.setSp_output (s : State) (v : Byte) : (s.setSp v).output = s.output := rfl
@[simp] theorem State.setSp_input (s : State) (v : Byte) : (s.setSp v).input = s.input := rfl
@[simp] theorem State.setSp_cfg (s : State) (v : Byte) : (s.setSp v).cfg = s.cfg := rfl
@[simp] theorem State.setSp_memRead (s : State) (v : Byte) (ea : Addr) : (s.setSp v).memRead ea = s.memRead ea := rfl

@[simp] theorem State.setP_a (s : State) (v : Byte) : (s.setP v).a = s.a := rfl
@[simp] theorem State.setP_x (s : State) (v : Byte) : (s.setP v).x = s.x := rfl
@[simp] theorem State.setP_y (s : State) (v : Byte) : (s.setP v).y = s.y := rfl
@[simp] theorem State.setP_sp (s : State) (v : Byte) : (s.setP v).sp = s.sp := rfl
@[simp] theorem State.setP_p (s : State) (v : Byte) : (s.setP v).p = v := rfl
@[simp] theorem State.setP_pc (s : State) (v : Byte) : (s.setP v).pc = s.pc := rfl
@[simp] theorem State.setP_mem (s : State) (v : Byte) : (s.setP v).mem = s.mem := rfl
@[simp] theorem State.setP_cs (s : State) (v : Byte) : (s.setP v).cs = s.cs := rfl
@[simp] theorem State.setP_csp (s : State) (v : Byte) : (s.setP v).csp = s.csp := rfl
@[simp] theorem State.setP_run (s : State) (v : Byte) : (s.setP v).run = s.run := rfl
@[simp] theorem State.setP_fault (s : State) (v : Byte) : (s.setP v).fault = s.fault := rfl
@[simp] theorem State.setP_phase (s : State) (v : Byte) : (s.setP v).phase = s.phase := rfl
@[simp] theorem State.setP_output (s : State) (v : Byte) : (s.setP v).output = s.output := rfl
@[simp] theorem State.setP_input (s : State) (v : Byte) : (s.setP v).input = s.input := rfl
@[simp] theorem State.setP_cfg (s : State) (v : Byte) : (s.setP v).cfg = s.cfg := rfl
@[simp] theorem State.setP_memRead (s : State) (v : Byte) (ea : Addr) : (s.setP v).memRead ea = s.memRead ea := rfl

@[simp] theorem State.setPc_a (s : State) (v : Addr) : (s.setPc v).a = s.a := rfl
@[simp] theorem State.setPc_x (s : State) (v : Addr) : (s.setPc v).x = s.x := rfl
@[simp] theorem State.setPc_y (s : State) (v : Addr) : (s.setPc v).y = s.y := rfl
@[simp] theorem State.setPc_sp (s : State) (v : Addr) : (s.setPc v).sp = s.sp := rfl
@[simp] theorem State.setPc_p (s : State) (v : Addr) : (s.setPc v).p = s.p := rfl
@[simp] theorem State.setPc_pc (s : State) (v : Addr) : (s.setPc v).pc = v := rfl
@[simp] theorem State.setPc_mem (s : State) (v : Addr) : (s.setPc v).mem = s.mem := rfl
@[simp] theorem State.setPc_cs (s : State) (v : Addr) : (s.setPc v).cs = s.cs := rfl
@[simp] theorem State.setPc_csp (s : State) (v : Addr) : (s.setPc v).csp = s.csp := rfl
@[simp] theorem State.setPc_run (s : State) (v : Addr) : (s.setPc v).run = s.run := rfl
@[simp] theorem State.setPc_fault (s : State) (v : Addr) : (s.setPc v).fault = s.fault := rfl
@[simp] theorem State.setPc_phase (s : State) (v : Addr) : (s.setPc v).phase = s.phase := rfl
@[simp] theorem State.setPc_output (s : State) (v : Addr) : (s.setPc v).output = s.output := rfl
@[simp] theorem State.setPc_input (s : State) (v : Addr) : (s.setPc v).input = s.input := rfl
@[simp] theorem State.setPc_cfg (s : State) (v : Addr) : (s.setPc v).cfg = s.cfg := rfl
@[simp] theorem State.setPc_memRead (s : State) (v : Addr) (ea : Addr) : (s.setPc v).memRead ea = s.memRead ea := rfl

@[simp] theorem State.setPhase_a (s : State) (ph : Phase) : (s.setPhase ph).a = s.a := rfl
@[simp] theorem State.setPhase_x (s : State) (ph : Phase) : (s.setPhase ph).x = s.x := rfl
@[simp] theorem State.setPhase_y (s : State) (ph : Phase) : (s.setPhase ph).y = s.y := rfl
@[simp] theorem State.setPhase_sp (s : State) (ph : Phase) : (s.setPhase ph).sp = s.sp := rfl
@[simp] theorem State.setPhase_p (s : State) (ph : Phase) : (s.setPhase ph).p = s.p := rfl
@[simp] theorem State.setPhase_pc (s : State) (ph : Phase) : (s.setPhase ph).pc = s.pc := rfl
@[simp] theorem State.setPhase_mem (s : State) (ph : Phase) : (s.setPhase ph).mem = s.mem := rfl
@[simp] theorem State.setPhase_cs (s : State) (ph : Phase) : (s.setPhase ph).cs = s.cs := rfl
@[simp] theorem State.setPhase_csp (s : State) (ph : Phase) : (s.setPhase ph).csp = s.csp := rfl
@[simp] theorem State.setPhase_run (s : State) (ph : Phase) : (s.setPhase ph).run = s.run := rfl
@[simp] theorem State.setPhase_fault (s : State) (ph : Phase) : (s.setPhase ph).fault = s.fault := rfl
@[simp] theorem State.setPhase_phase (s : State) (ph : Phase) : (s.setPhase ph).phase = ph := rfl
@[simp] theorem State.setPhase_output (s : State) (ph : Phase) : (s.setPhase ph).output = s.output := rfl
@[simp] theorem State.setPhase_input (s : State) (ph : Phase) : (s.setPhase ph).input = s.input := rfl
@[simp] theorem State.setPhase_cfg (s : State) (ph : Phase) : (s.setPhase ph).cfg = s.cfg := rfl
@[simp] theorem State.setPhase_memRead (s : State) (ph : Phase) (ea : Addr) : (s.setPhase ph).memRead ea = s.memRead ea := rfl

@[simp] theorem State.setCallStack_a (s : State) (c : CallStack) (n : Byte) : (s.setCallStack c n).a = s.a := rfl
@[simp] theorem State.setCallStack_x (s : State) (c : CallStack) (n : Byte) : (s.setCallStack c n).x = s.x := rfl
@[simp] theorem State.setCallStack_y (s : State) (c : CallStack) (n : Byte) : (s.setCallStack c n).y = s.y := rfl
@[simp] theorem State.setCallStack_sp (s : State) (c : CallStack) (n : Byte) : (s.setCallStack c n).sp = s.sp := rfl
@[simp] theorem State.setCallStack_p (s : State) (c : CallStack) (n : Byte) : (s.setCallStack c n).p = s.p := rfl
@[simp] theorem State.setCallStack_pc (s : State) (c : CallStack) (n : Byte) : (s.setCallStack c n).pc = s.pc := rfl
@[simp] theorem State.setCallStack_mem (s : State) (c : CallStack) (n : Byte) : (s.setCallStack c n).mem = s.mem := rfl
@[simp] theorem State.setCallStack_cs (s : State) (c : CallStack) (n : Byte) : (s.setCallStack c n).cs = c := rfl
@[simp] theorem State.setCallStack_csp (s : State) (c : CallStack) (n : Byte) : (s.setCallStack c n).csp = n := rfl
@[simp] theorem State.setCallStack_run (s : State) (c : CallStack) (n : Byte) : (s.setCallStack c n).run = s.run := rfl
@[simp] theorem State.setCallStack_fault (s : State) (c : CallStack) (n : Byte) : (s.setCallStack c n).fault = s.fault := rfl
@[simp] theorem State.setCallStack_phase (s : State) (c : CallStack) (n : Byte) : (s.setCallStack c n).phase = s.phase := rfl
@[simp] theorem State.setCallStack_output (s : State) (c : CallStack) (n : Byte) : (s.setCallStack c n).output = s.output := rfl
@[simp] theorem State.setCallStack_input (s : State) (c : CallStack) (n : Byte) : (s.setCallStack c n).input = s.input := rfl
@[simp] theorem State.setCallStack_cfg (s : State) (c : CallStack) (n : Byte) : (s.setCallStack c n).cfg = s.cfg := rfl
@[simp] theorem State.setCallStack_memRead (s : State) (c : CallStack) (n : Byte) (ea : Addr) : (s.setCallStack c n).memRead ea = s.memRead ea := rfl

@[simp] theorem State.setOutput_a (s : State) (bs : List Byte) : (s.setOutput bs).a = s.a := rfl
@[simp] theorem State.setOutput_x (s : State) (bs : List Byte) : (s.setOutput bs).x = s.x := rfl
@[simp] theorem State.setOutput_y (s : State) (bs : List Byte) : (s.setOutput bs).y = s.y := rfl
@[simp] theorem State.setOutput_sp (s : State) (bs : List Byte) : (s.setOutput bs).sp = s.sp := rfl
@[simp] theorem State.setOutput_p (s : State) (bs : List Byte) : (s.setOutput bs).p = s.p := rfl
@[simp] theorem State.setOutput_pc (s : State) (bs : List Byte) : (s.setOutput bs).pc = s.pc := rfl
@[simp] theorem State.setOutput_mem (s : State) (bs : List Byte) : (s.setOutput bs).mem = s.mem := rfl
@[simp] theorem State.setOutput_cs (s : State) (bs : List Byte) : (s.setOutput bs).cs = s.cs := rfl
@[simp] theorem State.setOutput_csp (s : State) (bs : List Byte) : (s.setOutput bs).csp = s.csp := rfl
@[simp] theorem State.setOutput_run (s : State) (bs : List Byte) : (s.setOutput bs).run = s.run := rfl
@[simp] theorem State.setOutput_fault (s : State) (bs : List Byte) : (s.setOutput bs).fault = s.fault := rfl
@[simp] theorem State.setOutput_phase (s : State) (bs : List Byte) : (s.setOutput bs).phase = s.phase := rfl
@[simp] theorem State.setOutput_output (s : State) (bs : List Byte) : (s.setOutput bs).output = bs := rfl
@[simp] theorem State.setOutput_input (s : State) (bs : List Byte) : (s.setOutput bs).input = s.input := rfl
@[simp] theorem State.setOutput_cfg (s : State) (bs : List Byte) : (s.setOutput bs).cfg = s.cfg := rfl
@[simp] theorem State.setOutput_memRead (s : State) (bs : List Byte) (ea : Addr) : (s.setOutput bs).memRead ea = s.memRead ea := rfl

@[simp] theorem State.setInput_a (s : State) (bs : List Byte) : (s.setInput bs).a = s.a := rfl
@[simp] theorem State.setInput_x (s : State) (bs : List Byte) : (s.setInput bs).x = s.x := rfl
@[simp] theorem State.setInput_y (s : State) (bs : List Byte) : (s.setInput bs).y = s.y := rfl
@[simp] theorem State.setInput_sp (s : State) (bs : List Byte) : (s.setInput bs).sp = s.sp := rfl
@[simp] theorem State.setInput_p (s : State) (bs : List Byte) : (s.setInput bs).p = s.p := rfl
@[simp] theorem State.setInput_pc (s : State) (bs : List Byte) : (s.setInput bs).pc = s.pc := rfl
@[simp] theorem State.setInput_mem (s : State) (bs : List Byte) : (s.setInput bs).mem = s.mem := rfl
@[simp] theorem State.setInput_cs (s : State) (bs : List Byte) : (s.setInput bs).cs = s.cs := rfl
@[simp] theorem State.setInput_csp (s : State) (bs : List Byte) : (s.setInput bs).csp = s.csp := rfl
@[simp] theorem State.setInput_run (s : State) (bs : List Byte) : (s.setInput bs).run = s.run := rfl
@[simp] theorem State.setInput_fault (s : State) (bs : List Byte) : (s.setInput bs).fault = s.fault := rfl
@[simp] theorem State.setInput_phase (s : State) (bs : List Byte) : (s.setInput bs).phase = s.phase := rfl
@[simp] theorem State.setInput_output (s : State) (bs : List Byte) : (s.setInput bs).output = s.output := rfl
@[simp] theorem State.setInput_input (s : State) (bs : List Byte) : (s.setInput bs).input = bs := rfl
@[simp] theorem State.setInput_cfg (s : State) (bs : List Byte) : (s.setInput bs).cfg = s.cfg := rfl
@[simp] theorem State.setInput_memRead (s : State) (bs : List Byte) (ea : Addr) : (s.setInput bs).memRead ea = s.memRead ea := rfl

@[simp] theorem State.memWrite_a (s : State) (ea : Addr) (v : Byte) : (s.memWrite ea v).a = s.a := rfl
@[simp] theorem State.memWrite_x (s : State) (ea : Addr) (v : Byte) : (s.memWrite ea v).x = s.x := rfl
@[simp] theorem State.memWrite_y (s : State) (ea : Addr) (v : Byte) : (s.memWrite ea v).y = s.y := rfl
@[simp] theorem State.memWrite_sp (s : State) (ea : Addr) (v : Byte) : (s.memWrite ea v).sp = s.sp := rfl
@[simp] theorem State.memWrite_p (s : State) (ea : Addr) (v : Byte) : (s.memWrite ea v).p = s.p := rfl
@[simp] theorem State.memWrite_pc (s : State) (ea : Addr) (v : Byte) : (s.memWrite ea v).pc = s.pc := rfl
@[simp] theorem State.memWrite_mem (s : State) (ea : Addr) (v : Byte) : (s.memWrite ea v).mem = memoryWrite s.mem ea.toNat v := rfl
@[simp] theorem State.memWrite_cs (s : State) (ea : Addr) (v : Byte) : (s.memWrite ea v).cs = s.cs := rfl
@[simp] theorem State.memWrite_csp (s : State) (ea : Addr) (v : Byte) : (s.memWrite ea v).csp = s.csp := rfl
@[simp] theorem State.memWrite_run (s : State) (ea : Addr) (v : Byte) : (s.memWrite ea v).run = s.run := rfl
@[simp] theorem State.memWrite_fault (s : State) (ea : Addr) (v : Byte) : (s.memWrite ea v).fault = s.fault := rfl
@[simp] theorem State.memWrite_phase (s : State) (ea : Addr) (v : Byte) : (s.memWrite ea v).phase = s.phase := rfl
@[simp] theorem State.memWrite_output (s : State) (ea : Addr) (v : Byte) : (s.memWrite ea v).output = s.output := rfl
@[simp] theorem State.memWrite_input (s : State) (ea : Addr) (v : Byte) : (s.memWrite ea v).input = s.input := rfl
@[simp] theorem State.memWrite_cfg (s : State) (ea : Addr) (v : Byte) : (s.memWrite ea v).cfg = s.cfg := rfl

@[simp] theorem State.after_a (s : State) (n : Nat) : (s.after n).a = s.a := rfl
@[simp] theorem State.after_x (s : State) (n : Nat) : (s.after n).x = s.x := rfl
@[simp] theorem State.after_y (s : State) (n : Nat) : (s.after n).y = s.y := rfl
@[simp] theorem State.after_sp (s : State) (n : Nat) : (s.after n).sp = s.sp := rfl
@[simp] theorem State.after_p (s : State) (n : Nat) : (s.after n).p = s.p := rfl
@[simp] theorem State.after_pc (s : State) (n : Nat) : (s.after n).pc = s.pc + BitVec.ofNat 16 n := rfl
@[simp] theorem State.after_mem (s : State) (n : Nat) : (s.after n).mem = s.mem := rfl
@[simp] theorem State.after_cs (s : State) (n : Nat) : (s.after n).cs = s.cs := rfl
@[simp] theorem State.after_csp (s : State) (n : Nat) : (s.after n).csp = s.csp := rfl
@[simp] theorem State.after_run (s : State) (n : Nat) : (s.after n).run = s.run := rfl
@[simp] theorem State.after_fault (s : State) (n : Nat) : (s.after n).fault = s.fault := rfl
@[simp] theorem State.after_phase (s : State) (n : Nat) : (s.after n).phase = .fetch := rfl
@[simp] theorem State.after_output (s : State) (n : Nat) : (s.after n).output = s.output := rfl
@[simp] theorem State.after_input (s : State) (n : Nat) : (s.after n).input = s.input := rfl
@[simp] theorem State.after_cfg (s : State) (n : Nat) : (s.after n).cfg = s.cfg := rfl
@[simp] theorem State.after_memRead (s : State) (n : Nat) (ea : Addr) : (s.after n).memRead ea = s.memRead ea := rfl

@[simp] theorem raise_a (s : State) (f : Fatal) : (raise f s).a = s.a := rfl
@[simp] theorem raise_x (s : State) (f : Fatal) : (raise f s).x = s.x := rfl
@[simp] theorem raise_y (s : State) (f : Fatal) : (raise f s).y = s.y := rfl
@[simp] theorem raise_sp (s : State) (f : Fatal) : (raise f s).sp = s.sp := rfl
@[simp] theorem raise_p (s : State) (f : Fatal) : (raise f s).p = s.p := rfl
@[simp] theorem raise_pc (s : State) (f : Fatal) : (raise f s).pc = s.pc := rfl
@[simp] theorem raise_mem (s : State) (f : Fatal) : (raise f s).mem = s.mem := rfl
@[simp] theorem raise_cs (s : State) (f : Fatal) : (raise f s).cs = s.cs := rfl
@[simp] theorem raise_csp (s : State) (f : Fatal) : (raise f s).csp = s.csp := rfl
@[simp] theorem raise_run (s : State) (f : Fatal) : (raise f s).run = false := rfl
@[simp] theorem raise_fault (s : State) (f : Fatal) : (raise f s).fault = some f := rfl
@[simp] theorem raise_phase (s : State) (f : Fatal) : (raise f s).phase = .halted := rfl
@[simp] theorem raise_output (s : State) (f : Fatal) : (raise f s).output = s.output := rfl
@[simp] theorem raise_input (s : State) (f : Fatal) : (raise f s).input = s.input := rfl
@[simp] theorem raise_cfg (s : State) (f : Fatal) : (raise f s).cfg = s.cfg := rfl
@[simp] theorem raise_memRead (s : State) (f : Fatal) (ea : Addr) : (raise f s).memRead ea = s.memRead ea := rfl

@[simp] theorem State.entered_a (s : State) : s.entered.a = s.a := rfl
@[simp] theorem State.entered_x (s : State) : s.entered.x = s.x := rfl
@[simp] theorem State.entered_y (s : State) : s.entered.y = s.y := rfl
@[simp] theorem State.entered_sp (s : State) : s.entered.sp = s.sp := rfl
@[simp] theorem State.entered_p (s : State) : s.entered.p = s.p := rfl
@[simp] theorem State.entered_pc (s : State) : s.entered.pc = s.pc + 1 := rfl
@[simp] theorem State.entered_mem (s : State) : s.entered.mem = s.mem := rfl
@[simp] theorem State.entered_cs (s : State) : s.entered.cs = s.cs := rfl
@[simp] theorem State.entered_csp (s : State) : s.entered.csp = s.csp := rfl
@[simp] theorem State.entered_run (s : State) : s.entered.run = s.run := rfl
@[simp] theorem State.entered_fault (s : State) : s.entered.fault = s.fault := rfl
@[simp] theorem State.entered_phase (s : State) : s.entered.phase = .execute := rfl
@[simp] theorem State.entered_output (s : State) : s.entered.output = s.output := rfl
@[simp] theorem State.entered_input (s : State) : s.entered.input = s.input := rfl
@[simp] theorem State.entered_cfg (s : State) : s.entered.cfg = s.cfg := rfl
@[simp] theorem State.entered_memRead (s : State) (ea : Addr) : s.entered.memRead ea = s.memRead ea := rfl

end Sys2Proof.Machine
end

