-- ==== Sys2Proof/Laws/Memory.lean ====
section
/-! SUPPORT. The laws of memory: read after write, and every operation keeps the canonical form. -/

namespace Sys2Proof.Machine

/-! ## Reading after an erase, an insert, a write -/

theorem memoryRead_erase_same (m : Memory) (a : Nat) : memoryRead (memoryErase m a) a = unlistedByte := by
  induction m with
  | nil => rfl
  | cons c m ih =>
    obtain ⟨b, v⟩ := c
    by_cases h : b = a
    · simpa [memoryErase, h] using ih
    · have : ¬ a = b := fun e => h e.symm
      simpa [memoryErase, h, memoryRead, this] using ih

theorem memoryRead_erase_other (m : Memory) {a b : Nat} (h : b ≠ a) :
    memoryRead (memoryErase m a) b = memoryRead m b := by
  induction m with
  | nil => rfl
  | cons c m ih =>
    obtain ⟨k, v⟩ := c
    by_cases hk : k = a
    · subst hk
      simpa [memoryErase, memoryRead, h] using ih
    · simp only [memoryErase] at ih
      simp [memoryErase, hk, memoryRead, ih]

theorem memoryRead_insert_same (m : Memory) (a : Nat) (v : Byte) (h : memoryRead m a = unlistedByte ∧ a ∉ m.map Prod.fst) :
    memoryRead (memoryInsert m a v) a = v := by
  induction m with
  | nil => simp [memoryInsert, memoryRead]
  | cons c m ih =>
    obtain ⟨b, w⟩ := c
    have hb : a ≠ b := by intro e; simp [e] at h
    simp only [memoryInsert]
    split
    · simp [memoryRead]
    · simp only [memoryRead, hb, if_false] at h ⊢
      exact ih ⟨h.1, by simp at h ⊢; exact h.2.2⟩

theorem memoryRead_insert_other (m : Memory) {a b : Nat} (v : Byte) (h : b ≠ a) :
    memoryRead (memoryInsert m a v) b = memoryRead m b := by
  induction m with
  | nil => simp [memoryInsert, memoryRead, h]
  | cons c m ih =>
    obtain ⟨k, w⟩ := c
    simp only [memoryInsert]
    split
    · simp [memoryRead, h]
    · simp only [memoryRead, ih]

theorem notMem_erase (m : Memory) (a : Nat) : a ∉ (memoryErase m a).map Prod.fst := by
  simp [memoryErase]

/-- A read of the byte just written gives the value written. -/
theorem memoryRead_write_same (m : Memory) (a : Nat) (v : Byte) : memoryRead (memoryWrite m a v) a = v := by
  unfold memoryWrite
  split
  · next h => rw [memoryRead_erase_same, h]
  · exact memoryRead_insert_same _ _ _ ⟨memoryRead_erase_same m a, notMem_erase m a⟩

/-- A write leaves every other byte alone. -/
theorem memoryRead_write_other (m : Memory) {a b : Nat} (v : Byte) (h : b ≠ a) :
    memoryRead (memoryWrite m a v) b = memoryRead m b := by
  unfold memoryWrite
  split
  · exact memoryRead_erase_other m h
  · rw [memoryRead_insert_other _ _ h, memoryRead_erase_other m h]

theorem memRead_memWrite_same (s : State) (ea : Addr) (v : Byte) : (s.memWrite ea v).memRead ea = v :=
  memoryRead_write_same _ _ _

theorem memRead_memWrite_other (s : State) {ea b : Addr} (v : Byte) (h : b ≠ ea) :
    (s.memWrite ea v).memRead b = s.memRead b :=
  memoryRead_write_other _ _ (fun e => h (BitVec.eq_of_toNat_eq e))

/-! ## The canonical form -/

theorem memoryWfFrom_mono {m : Memory} {lo hi : Nat} (h : memoryWfFrom hi m = true) (hl : lo ≤ hi) :
    memoryWfFrom lo m = true := by
  cases m with
  | nil => rfl
  | cons c m =>
    simp only [memoryWfFrom, Bool.and_eq_true, decide_eq_true_eq] at h ⊢
    exact ⟨⟨⟨le_trans hl h.1.1.1, h.1.1.2⟩, h.1.2⟩, h.2⟩

theorem memoryErase_wf {m : Memory} {lo : Nat} (a : Nat) (h : memoryWfFrom lo m = true) :
    memoryWfFrom lo (memoryErase m a) = true := by
  induction m generalizing lo with
  | nil => rfl
  | cons c m ih =>
    simp only [memoryWfFrom, Bool.and_eq_true, decide_eq_true_eq] at h
    by_cases hc : c.1 = a
    · have := memoryWfFrom_mono (ih h.2) (le_trans h.1.1.1 (Nat.le_succ c.1))
      simpa [memoryErase, hc] using this
    · have := ih h.2
      simp only [memoryErase] at this
      simp [memoryErase, hc, memoryWfFrom, h.1.1.1, h.1.1.2, h.1.2, this]

theorem memoryInsert_wf {m : Memory} {lo a : Nat} {v : Byte} (h : memoryWfFrom lo m = true) (hl : lo ≤ a)
    (ha : a < memSize) (hv : v ≠ unlistedByte) (hm : a ∉ m.map Prod.fst) :
    memoryWfFrom lo (memoryInsert m a v) = true := by
  induction m generalizing lo with
  | nil => simp [memoryInsert, memoryWfFrom, hl, ha, hv]
  | cons c m ih =>
    obtain ⟨b, w⟩ := c
    simp only [memoryWfFrom, Bool.and_eq_true, decide_eq_true_eq] at h
    have hab : a ≠ b := by intro e; simp [e] at hm
    simp only [memoryInsert]
    split
    · next hlt =>
      simp only [memoryWfFrom, Bool.and_eq_true, decide_eq_true_eq]
      exact ⟨⟨⟨hl, ha⟩, hv⟩, ⟨⟨hlt, h.1.1.2⟩, h.1.2⟩, h.2⟩
    · next hlt =>
      simp only [memoryWfFrom, Bool.and_eq_true, decide_eq_true_eq]
      exact ⟨h.1, ih h.2 (by omega) (by simp at hm ⊢; exact hm.2)⟩

/-- Every write keeps the canonical form. -/
theorem memoryWrite_wf {m : Memory} {a : Nat} (v : Byte) (ha : a < memSize) (h : m.wf = true) :
    Memory.wf (memoryWrite m a v) = true := by
  unfold memoryWrite
  split
  · exact memoryErase_wf a h
  · next hv => exact memoryInsert_wf (memoryErase_wf a h) (Nat.zero_le a) ha hv (notMem_erase m a)

theorem memWrite_wf (s : State) (ea : Addr) (v : Byte) (h : s.mem.wf = true) : (s.memWrite ea v).mem.wf = true :=
  memoryWrite_wf v ea.isLt h

theorem loadBytes_wf (bytes : List Byte) (base : Addr) (s : State) (h : s.mem.wf = true) :
    (loadBytes base bytes s).mem.wf = true := by
  induction bytes generalizing base s with
  | nil => exact h
  | cons b rest ih => exact ih _ _ (memWrite_wf s base b h)

theorem reset_memory_wf : State.reset.mem.wf = true := rfl

/-! ## Two memories in canonical form that read alike are equal -/

theorem memoryRead_below {m : Memory} {lo a : Nat} (h : memoryWfFrom lo m = true) (ha : a < lo) :
    memoryRead m a = unlistedByte := by
  induction m generalizing lo with
  | nil => rfl
  | cons c m ih =>
    obtain ⟨b, w⟩ := c
    simp only [memoryWfFrom, Bool.and_eq_true, decide_eq_true_eq] at h
    have : a ≠ b := by omega
    simpa [memoryRead, this] using ih h.2 (by omega)

theorem memory_ext_from {m n : Memory} {lo : Nat} (hm : memoryWfFrom lo m = true) (hn : memoryWfFrom lo n = true)
    (h : ∀ a, memoryRead m a = memoryRead n a) : m = n := by
  induction m generalizing n lo with
  | nil =>
    cases n with
    | nil => rfl
    | cons d n =>
      simp only [memoryWfFrom, Bool.and_eq_true, decide_eq_true_eq] at hn
      exact absurd (h d.1) (by simpa [memoryRead] using fun e => hn.1.2 e.symm)
  | cons c m ih =>
    obtain ⟨a, v⟩ := c
    simp only [memoryWfFrom, Bool.and_eq_true, decide_eq_true_eq] at hm
    cases n with
    | nil => exact absurd (h a) (by simpa [memoryRead] using hm.1.2)
    | cons d n =>
      obtain ⟨b, w⟩ := d
      simp only [memoryWfFrom, Bool.and_eq_true, decide_eq_true_eq] at hn
      have hab : a = b := by
        rcases Nat.lt_trichotomy a b with hlt | he | hlt
        · have := h a
          have hne : a ≠ b := by omega
          simp [memoryRead, hne, memoryRead_below hn.2 (show a < b + 1 by omega)] at this
          exact absurd this hm.1.2
        · exact he
        · have := h b
          have hne : b ≠ a := by omega
          simp [memoryRead, hne, memoryRead_below hm.2 (show b < a + 1 by omega)] at this
          exact absurd this.symm hn.1.2
      subst hab
      have hv : v = w := by simpa [memoryRead] using h a
      subst hv
      congr 1
      refine ih hm.2 hn.2 (fun k => ?_)
      by_cases hk : k = a
      · subst hk
        rw [memoryRead_below hm.2 (Nat.lt_succ_self k), memoryRead_below hn.2 (Nat.lt_succ_self k)]
      · simpa [memoryRead, hk] using h k

/-- Equal memories are equal data. -/
theorem memory_ext {m n : Memory} (hm : m.wf = true) (hn : n.wf = true) (h : ∀ a, memoryRead m a = memoryRead n a) :
    m = n :=
  memory_ext_from hm hn h

end Sys2Proof.Machine
end

