-- ==== Sys2Proof/Laws/Ops.lean ====
section
/-! SUPPORT. One lemma for each shared operation that says once everything it can do, and one that says what it does where it has
room; the proofs cite these instead of unfolding the operation. -/

namespace Sys2Proof.Machine

/-! ## Flow -/

/-- A step's rest runs where the operation goes on; a halt is the next state; a stop is a fault. -/
theorem Flow.andThen_eq_next {α : Type} {m : Flow α} {k : α → State → Result} {t : State}
    (h : m.andThen k = .next t) : (∃ v u, m = .ok v u ∧ k v u = .next t) ∨ m = .halt t := by
  cases m with
  | ok v u => exact .inl ⟨v, u, rfl, h⟩
  | halt u => right; simpa [Flow.andThen] using h
  | stop f => simp [Flow.andThen] at h

theorem Flow.andThen_eq_fault {α : Type} {m : Flow α} {k : α → State → Result} {f : Fault}
    (h : m.andThen k = .fault f) : (∃ v u, m = .ok v u ∧ k v u = .fault f) ∨ m = .stop f := by
  cases m with
  | ok v u => exact .inl ⟨v, u, rfl, h⟩
  | halt u => simp [Flow.andThen] at h
  | stop g => right; simpa [Flow.andThen] using h

theorem Flow.andThen_of_ok {α : Type} {m : Flow α} {v : α} {u : State} (h : m = .ok v u) (k : α → State → Result) :
    m.andThen k = k v u := by
  rw [h, Flow.andThen]

theorem Flow.andThen_of_halt {α : Type} {m : Flow α} {u : State} (h : m = .halt u) (k : α → State → Result) :
    m.andThen k = .next u := by
  rw [h, Flow.andThen]

theorem Flow.andThen_of_stop {α : Type} {m : Flow α} {f : Fault} (h : m = .stop f) (k : α → State → Result) :
    m.andThen k = .fault f := by
  rw [h, Flow.andThen]

theorem complete_eq (s : State) : complete s = .next { s with phase := .fetch } := rfl

/-! ## The program counter -/

/-- Everything `setPcTo` can do. -/
theorem setPcTo_cases (base : Addr) (n : Nat) (s : State) :
    ((s.cfg.topPolicy = .fault → base.toNat + n ≤ 0xFFFF) ∧
      setPcTo base n s = .ok () (s.setPc (base + BitVec.ofNat 16 n))) ∨
    (s.cfg.topPolicy = .fault ∧ 0xFFFF < base.toNat + n ∧ setPcTo base n s = .stop .pastTop) := by
  by_cases h : s.cfg.topPolicy = .fault ∧ 0xFFFF < base.toNat + n
  · exact .inr ⟨h.1, h.2, if_pos h⟩
  · refine .inl ⟨fun hp => ?_, if_neg h⟩
    by_contra hn
    exact h ⟨hp, by omega⟩

theorem setPcTo_ok {base : Addr} {n : Nat} {s : State} (h : s.cfg.topPolicy = .fault → base.toNat + n ≤ 0xFFFF) :
    setPcTo base n s = .ok () (s.setPc (base + BitVec.ofNat 16 n)) :=
  if_neg (fun hn => absurd (h hn.1) (by omega))

theorem advancePc_ok {n : Nat} {s : State} (h : s.roomFor n) :
    advancePc n s = .ok () (s.setPc (s.pc + BitVec.ofNat 16 n)) :=
  setPcTo_ok h

/-- Everything `advancePc` can do. -/
theorem advancePc_cases (n : Nat) (s : State) :
    (s.roomFor n ∧ advancePc n s = .ok () (s.setPc (s.pc + BitVec.ofNat 16 n))) ∨
    (¬ s.roomFor n ∧ s.cfg.topPolicy = .fault ∧ advancePc n s = .stop .pastTop) := by
  rcases setPcTo_cases s.pc n s with ⟨h, e⟩ | ⟨hp, hn, e⟩
  · exact .inl ⟨h, e⟩
  · exact .inr ⟨fun h => absurd (h hp) (by omega), hp, e⟩

theorem roomFor_of_wrap {s : State} (h : s.cfg.topPolicy = .wrap) (n : Nat) : s.roomFor n := by
  intro e
  rw [h] at e
  cases e

/-- Room for more is room for less. -/
theorem roomFor_mono {s : State} {m n : Nat} (h : s.roomFor n) (hm : m ≤ n) : s.roomFor m :=
  fun hp => by have := h hp; omega

theorem advancePc_zero (s : State) : advancePc 0 s = .ok () s := by
  have h : s.roomFor 0 := fun _ => by have := s.pc.isLt; omega
  rw [advancePc_ok h]
  simp [State.setPc]

/-! ## The resolver -/

/-- Everything the resolver can do on decoded operand bytes. -/
theorem resolveOperands_cases (m : Mode) (lo hi : Byte) (s : State) :
    (s.roomFor (operandCount m) ∧ resolveOperands m lo hi s =
      .ok (effectiveAddress m s.pc lo hi s.x s.y) (s.setPc (s.pc + BitVec.ofNat 16 (operandCount m)))) ∨
    (¬ s.roomFor (operandCount m) ∧ s.cfg.topPolicy = .fault ∧ resolveOperands m lo hi s = .stop .pastTop) := by
  rcases advancePc_cases (operandCount m) s with ⟨h, e⟩ | ⟨h, hp, e⟩
  · exact .inl ⟨h, by simp [resolveOperands, e]⟩
  · exact .inr ⟨h, hp, by simp [resolveOperands, e]⟩

theorem resolveOperands_ok {m : Mode} {lo hi : Byte} {s : State} (h : s.roomFor (operandCount m)) :
    resolveOperands m lo hi s =
      .ok (effectiveAddress m s.pc lo hi s.x s.y) (s.setPc (s.pc + BitVec.ofNat 16 (operandCount m))) := by
  simp [resolveOperands, advancePc_ok h]

theorem resolveOperands_immediate (lo hi : Byte) (s : State) : resolveOperands .immediate lo hi s = .ok s.pc s := by
  simp [resolveOperands, operandCount, advancePc_zero, effectiveAddress]

/-- The resolver's selector is one of the seven modes in order, or it is 7. -/
theorem modeOfSelector_none {sel : BitVec 3} : modeOfSelector sel = none ↔ sel = 7 := by
  revert sel
  decide

/-! ## Shared shapes of meanings -/

/-- Everything an instruction with an immediate operand can do. -/
theorem withImmediate_cases (imm8 : Byte) (s : State) (k : Byte → State → State) :
    (s.roomFor 1 ∧ withImmediate imm8 s k = .next ((k imm8 (s.setPc (s.pc + 1))).setPhase .fetch)) ∨
    (¬ s.roomFor 1 ∧ s.cfg.topPolicy = .fault ∧ withImmediate imm8 s k = .fault .pastTop) := by
  have e0 := resolveOperands_immediate imm8 0 s
  rcases advancePc_cases 1 s with ⟨h, e⟩ | ⟨h, hp, e⟩
  · exact .inl ⟨h, (Flow.andThen_of_ok e0 _).trans (Flow.andThen_of_ok e _)⟩
  · exact .inr ⟨h, hp, (Flow.andThen_of_ok e0 _).trans (Flow.andThen_of_stop e _)⟩

/-- Everything a load from memory can do. -/
theorem loadFrom_cases (m : Mode) (lo hi : Byte) (s : State) (k : State → Byte → State) :
    (s.roomFor (operandCount m) ∧ loadFrom m lo hi s k =
      .next ((k (s.setPc (s.pc + BitVec.ofNat 16 (operandCount m)))
        (s.memRead (effectiveAddress m s.pc lo hi s.x s.y))).setPhase .fetch)) ∨
    (¬ s.roomFor (operandCount m) ∧ s.cfg.topPolicy = .fault ∧ loadFrom m lo hi s k = .fault .pastTop) := by
  rcases resolveOperands_cases m lo hi s with ⟨h, e⟩ | ⟨h, hp, e⟩
  · exact .inl ⟨h, Flow.andThen_of_ok e _⟩
  · exact .inr ⟨h, hp, Flow.andThen_of_stop e _⟩

/-- Everything a store can do. -/
theorem storeTo_cases (m : Mode) (lo hi v : Byte) (s : State) :
    (s.roomFor (operandCount m) ∧ storeTo m lo hi v s =
      .next ((s.after (operandCount m)).memWrite (effectiveAddress m s.pc lo hi s.x s.y) v)) ∨
    (¬ s.roomFor (operandCount m) ∧ s.cfg.topPolicy = .fault ∧ storeTo m lo hi v s = .fault .pastTop) := by
  rcases resolveOperands_cases m lo hi s with ⟨h, e⟩ | ⟨h, hp, e⟩
  · exact .inl ⟨h, Flow.andThen_of_ok e _⟩
  · exact .inr ⟨h, hp, Flow.andThen_of_stop e _⟩

/-- Everything `INC zp` can do. -/
theorem execIncZp_cases (zp8 : Byte) (s : State) :
    (s.roomFor 1 ∧ execIncZp zp8 s = .next ((s.after 1).memWrite (zext16 zp8) (aluInc (s.memRead (zext16 zp8))))) ∨
    (¬ s.roomFor 1 ∧ s.cfg.topPolicy = .fault ∧ execIncZp zp8 s = .fault .pastTop) := by
  rcases resolveOperands_cases .zeroPage zp8 0 s with ⟨h, e⟩ | ⟨h, hp, e⟩
  · exact .inl ⟨h, Flow.andThen_of_ok e _⟩
  · exact .inr ⟨h, hp, Flow.andThen_of_stop e _⟩

/-- Everything a branch can do. -/
theorem branchIf_cases (cond : Bool) (off8 : Byte) (s : State) :
    (s.roomFor 1 ∧ cond = false ∧ branchIf cond off8 s = .next (s.after 1)) ∨
    (s.roomFor 1 ∧ cond = true ∧ branchIf cond off8 s =
      .next { s.after 1 with
        pc := branchBaseAddr s.cfg.branchBase s.pc (s.pc + 1) + BitVec.ofNat 16 off8.toNat } ∧
      (s.cfg.topPolicy = .fault → (branchBaseAddr s.cfg.branchBase s.pc (s.pc + 1)).toNat + off8.toNat ≤ 0xFFFF)) ∨
    (s.cfg.topPolicy = .fault ∧ branchIf cond off8 s = .fault .pastTop ∧
      (¬ s.roomFor 1 ∨ (s.roomFor 1 ∧ cond = true ∧
        0xFFFF < (branchBaseAddr s.cfg.branchBase s.pc (s.pc + 1)).toNat + off8.toNat))) := by
  rcases advancePc_cases 1 s with ⟨h, e⟩ | ⟨h, hp, e⟩
  · cases cond with
    | false => exact .inl ⟨h, rfl, Flow.andThen_of_ok e _⟩
    | true =>
      rcases setPcTo_cases (branchBaseAddr s.cfg.branchBase s.pc (s.pc + 1)) off8.toNat (s.setPc (s.pc + 1)) with
        ⟨h', e'⟩ | ⟨hp', hn', e'⟩
      · exact .inr (.inl ⟨h, rfl, (Flow.andThen_of_ok e _).trans (Flow.andThen_of_ok e' _), h'⟩)
      · exact .inr (.inr ⟨hp', (Flow.andThen_of_ok e _).trans (Flow.andThen_of_stop e' _), .inr ⟨h, rfl, hn'⟩⟩)
  · exact .inr (.inr ⟨hp, Flow.andThen_of_stop e _, .inl h⟩)

/-- Everything `JMP abs` can do. -/
theorem execJmpAbs_cases (lo hi : Byte) (s : State) :
    (s.roomFor 2 ∧ execJmpAbs lo hi s = .next { s.after 2 with pc := hiLo hi lo }) ∨
    (¬ s.roomFor 2 ∧ s.cfg.topPolicy = .fault ∧ execJmpAbs lo hi s = .fault .pastTop) := by
  rcases resolveOperands_cases .absolute lo hi s with ⟨h, e⟩ | ⟨h, hp, e⟩
  · exact .inl ⟨h, Flow.andThen_of_ok e _⟩
  · exact .inr ⟨h, hp, Flow.andThen_of_stop e _⟩

/-! ## The call stack -/

@[simp] theorem slotAt_setSlot_same (cs : CallStack) (k : Byte) (v : Addr) : slotAt (setSlot cs k v) k = v := by
  simp [slotAt, setSlot]

theorem slotAt_setSlot_other (cs : CallStack) {j k : Byte} (v : Addr) (h : j ≠ k) :
    slotAt (setSlot cs k v) j = slotAt cs j := by
  have : k.toNat ≠ j.toNat := fun e => h (BitVec.eq_of_toNat_eq e.symm)
  simp [slotAt, setSlot, Vector.getElem_set_ne, this]

/-- Everything `push` can do. -/
theorem push_cases (ret : Addr) (s : State) :
    (s.csp = 0 ∧ push ret s = .halt (raise .stackOverflow s)) ∨
    (s.csp ≠ 0 ∧ push ret s = .ok () (s.setCallStack (setSlot s.cs s.csp ret) (s.csp - 1))) := by
  by_cases h : s.csp = 0
  · exact .inl ⟨h, if_pos h⟩
  · exact .inr ⟨h, if_neg h⟩

/-- Everything `pop` can do. -/
theorem pop_cases (s : State) :
    (s.csp = 255 ∧ pop s = .halt (raise .stackUnderflow s)) ∨
    (s.csp ≠ 255 ∧ pop s = .ok (slotAt s.cs (s.csp + 1)) (s.setCallStack s.cs (s.csp + 1))) := by
  by_cases h : s.csp = 255
  · exact .inl ⟨h, if_pos h⟩
  · exact .inr ⟨h, if_neg h⟩

/-- Everything a return can do. -/
theorem popToPc_cases (s : State) :
    (s.csp = 255 ∧ popToPc s = .next (raise .stackUnderflow s)) ∨
    (s.csp ≠ 255 ∧ popToPc s =
      .next { s with pc := slotAt s.cs (s.csp + 1), csp := s.csp + 1, phase := .fetch }) := by
  rcases pop_cases s with ⟨h, e⟩ | ⟨h, e⟩
  · exact .inl ⟨h, Flow.andThen_of_halt e _⟩
  · exact .inr ⟨h, Flow.andThen_of_ok e _⟩

/-- The implicit return of a trapped call takes back the address just pushed; it cannot underflow (R214). -/
theorem popToPc_pushed {s : State} {c : Byte} {cs : CallStack} {ret : Addr} (hc : c ≠ 0) (hcsp : s.csp = c - 1)
    (hcs : s.cs = setSlot cs c ret) :
    popToPc s = .next { s with pc := ret, csp := c, phase := .fetch } := by
  rcases popToPc_cases s with ⟨h, _⟩ | ⟨_, e⟩
  · rw [hcsp] at h
    bv_omega
  · rw [e, hcsp, hcs]
    simp

/-! ## The call -/

/-- The state of a call just before the trap check: the return address pushed, `PC` at the target. -/
abbrev callEntered (s : State) (target : Addr) : State :=
  ((s.setPc (s.pc + 2)).setCallStack (setSlot s.cs s.csp (s.pc + 2)) (s.csp - 1)).setPc target

/-- Everything `JSR abs` can do: stop past the top of memory, halt on a full stack, call, emit, read, or wait. -/
theorem execJsrAbs_cases (lo hi : Byte) (s : State) :
    (¬ s.roomFor 2 ∧ s.cfg.topPolicy = .fault ∧ execJsrAbs lo hi s = .fault .pastTop) ∨
    (s.roomFor 2 ∧ s.csp = 0 ∧
      execJsrAbs lo hi s = .next { s with pc := s.pc + 2, run := false, fault := some .stackOverflow, phase := .halted }) ∨
    (s.roomFor 2 ∧ s.csp ≠ 0 ∧ isTrap s.cfg (hiLo hi lo) = false ∧ execJsrAbs lo hi s =
      .next { s.after 2 with pc := hiLo hi lo, cs := setSlot s.cs s.csp (s.pc + 2), csp := s.csp - 1 }) ∨
    (s.roomFor 2 ∧ s.csp ≠ 0 ∧ hiLo hi lo = s.cfg.trapOut ∧ execJsrAbs lo hi s =
      .next { s.after 2 with output := s.output ++ [s.a], cs := setSlot s.cs s.csp (s.pc + 2) }) ∨
    (s.roomFor 2 ∧ s.csp ≠ 0 ∧ hiLo hi lo ≠ s.cfg.trapOut ∧ hiLo hi lo = s.cfg.trapIn ∧
      ∃ b rest, s.input = b :: rest ∧ execJsrAbs lo hi s =
        .next { s.after 2 with a := b, input := rest, cs := setSlot s.cs s.csp (s.pc + 2) }) ∨
    (s.roomFor 2 ∧ s.csp ≠ 0 ∧ hiLo hi lo ≠ s.cfg.trapOut ∧ hiLo hi lo = s.cfg.trapIn ∧ s.input = [] ∧
      execJsrAbs lo hi s = .next { s with pc := s.pc - 1, phase := .ioWait }) := by
  rcases resolveOperands_cases .absolute lo hi s with ⟨h, e⟩ | ⟨h, hp, e⟩
  swap
  · exact .inl ⟨h, hp, Flow.andThen_of_stop e _⟩
  right
  have h2 : s.roomFor 2 := h
  rcases push_cases (s.pc + 2) (s.setPc (s.pc + 2)) with ⟨hc, hp⟩ | ⟨hc, hp⟩
  · exact .inl ⟨h2, hc, (Flow.andThen_of_ok e _).trans (Flow.andThen_of_halt hp _)⟩
  right
  have called : execJsrAbs lo hi s =
      if isTrap s.cfg (hiLo hi lo) then trappedCall (hiLo hi lo) s (callEntered s (hiLo hi lo))
      else complete (callEntered s (hiLo hi lo)) :=
    (Flow.andThen_of_ok e _).trans (Flow.andThen_of_ok hp _)
  by_cases ht : isTrap s.cfg (hiLo hi lo) = true
  swap
  · exact .inl ⟨h2, hc, by simpa using ht, called.trans (if_neg ht)⟩
  right
  rw [if_pos ht] at called
  by_cases ho : hiLo hi lo = s.cfg.trapOut
  · exact .inl ⟨h2, hc, ho, called.trans ((if_pos ho).trans (popToPc_pushed hc rfl rfl))⟩
  right
  have hi' : hiLo hi lo = s.cfg.trapIn := by simpa [isTrap, ho] using ht
  have asked := called.trans (if_neg ho)
  cases hin : s.input with
  | nil =>
    have none : hostIn (callEntered s (hiLo hi lo)) = none := by
      unfold hostIn
      rw [show (callEntered s (hiLo hi lo)).input = s.input from rfl, hin]
    exact .inr ⟨h2, hc, ho, hi', rfl, by rw [asked, none, ← hin]; rfl⟩
  | cons b rest =>
    have some : hostIn (callEntered s (hiLo hi lo)) = some (((callEntered s (hiLo hi lo)).setInput rest).setA b) := by
      unfold hostIn
      rw [show (callEntered s (hiLo hi lo)).input = s.input from rfl, hin]
    exact .inl ⟨h2, hc, ho, hi', b, rest, rfl, by rw [asked, some]; exact popToPc_pushed hc rfl rfl⟩

/-! ## Fetch and decode -/

/-- Everything the fetch phase can do. -/
theorem fetch_cases (s : State) :
    (s.roomFor 1 ∧ fetch s = .ok (s.memRead s.pc) ((s.setPc (s.pc + 1)).setPhase .decode)) ∨
    (¬ s.roomFor 1 ∧ s.cfg.topPolicy = .fault ∧ fetch s = .stop .pastTop) := by
  rcases advancePc_cases 1 s with ⟨h, e⟩ | ⟨h, hp, e⟩
  · exact .inl ⟨h, by simp [fetch, e]⟩
  · exact .inr ⟨h, hp, by simp [fetch, e]⟩

/-- Three bytes always decode, or their first is in no row: the decoder never runs short inside a step. -/
theorem decodeWith_three (t : OpcodeTable) (b b1 b2 : Byte) :
    (lookupOpcode t b = none ∧ decodeWith t [b, b1, b2] = .error (.unknownOpcode b)) ∨
    ∃ op rest, lookupOpcode t b = some op ∧ decodeWith t [b, b1, b2] = .ok (instrOf op b1 b2, rest) := by
  cases h : lookupOpcode t b with
  | none => exact .inl ⟨rfl, by simp [decodeWith, h]⟩
  | some op =>
    right
    cases op <;> exact ⟨_, _, rfl, by simp only [decodeWith, h]; rfl⟩

/-- Everything the decode phase can do. -/
theorem decodePhase_cases (opcode : Byte) (s : State) :
    (lookupOpcode s.cfg.opcodes opcode = none ∧ decodePhase opcode s = .halt (raise (.unknownOpcode opcode) s)) ∨
    ∃ i rest, decodeWith s.cfg.opcodes [opcode, s.memRead s.pc, s.memRead (s.pc + 1)] = .ok (i, rest) ∧
      decodePhase opcode s = .ok i (s.setPhase .execute) := by
  rcases decodeWith_three s.cfg.opcodes opcode (s.memRead s.pc) (s.memRead (s.pc + 1)) with
    ⟨hl, hd⟩ | ⟨op, rest, _, hd⟩
  · exact .inl ⟨hl, by rw [decodePhase, hd]⟩
  · exact .inr ⟨_, rest, hd, by rw [decodePhase, hd]⟩

/-- Everything a step can do: nothing when halted, stop at the fetch increment, halt on an unknown byte, or run the decoded
instruction. -/
theorem step_cases (s : State) :
    (s.run = false ∧ step s = .fault (.halted s.fault)) ∨
    (s.run = true ∧ ¬ s.roomFor 1 ∧ s.cfg.topPolicy = .fault ∧ step s = .fault .pastTop) ∨
    (s.run = true ∧ s.roomFor 1 ∧ lookupOpcode s.cfg.opcodes (s.memRead s.pc) = none ∧
      step s = .next { s with
        pc := s.pc + 1, run := false, fault := some (.unknownOpcode (s.memRead s.pc)), phase := .halted }) ∨
    (s.run = true ∧ s.roomFor 1 ∧ ∃ i rest,
      decodeWith s.cfg.opcodes s.bytesAtPc = .ok (i, rest) ∧ step s = exec i s.entered) := by
  cases hr : s.run with
  | false => exact .inl ⟨rfl, by rw [step, hr]; rfl⟩
  | true =>
    right
    have run : step s = (fetch s).andThen fun opcode t => (decodePhase opcode t).andThen exec := by
      rw [step, if_pos hr]
    rcases fetch_cases s with ⟨h, e⟩ | ⟨h, hp, e⟩
    swap
    · exact .inl ⟨rfl, h, hp, run.trans (Flow.andThen_of_stop e _)⟩
    right
    have fetched := run.trans (Flow.andThen_of_ok e _)
    rcases decodePhase_cases (s.memRead s.pc) ((s.setPc (s.pc + 1)).setPhase .decode) with ⟨hl, d⟩ | ⟨i, rest, hd, d⟩
    · exact .inl ⟨rfl, h, hl, fetched.trans (Flow.andThen_of_halt d _)⟩
    · exact .inr ⟨rfl, h, i, rest, hd, fetched.trans (Flow.andThen_of_ok d _)⟩

end Sys2Proof.Machine
end

