-- ==== Sys2Proof/Laws/Next.lean ====
section
/-! SUPPORT. What a meaning's next state is, read off from its answer: one inversion lemma for each shared shape of a meaning. -/

namespace Sys2Proof.Machine

theorem complete_next {s t : State} (h : complete s = .next t) : t = { s with phase := .fetch } := by
  rw [complete_eq] at h
  exact (Host.Outcome.next.inj h).symm

theorem withImmediate_next {imm8 : Byte} {s t : State} {k : Byte → State → State} (h : withImmediate imm8 s k = .next t) :
    t = (k imm8 (s.setPc (s.pc + 1))).setPhase .fetch := by
  rcases withImmediate_cases imm8 s k with ⟨_, e⟩ | ⟨_, _, e⟩ <;> rw [e] at h
  · exact (Host.Outcome.next.inj h).symm
  · cases h

theorem loadFrom_next {m : Mode} {lo hi : Byte} {s t : State} {k : State → Byte → State}
    (h : loadFrom m lo hi s k = .next t) :
    t = (k (s.setPc (s.pc + BitVec.ofNat 16 (operandCount m)))
      (s.memRead (effectiveAddress m s.pc lo hi s.x s.y))).setPhase .fetch := by
  rcases loadFrom_cases m lo hi s k with ⟨_, e⟩ | ⟨_, _, e⟩ <;> rw [e] at h
  · exact (Host.Outcome.next.inj h).symm
  · cases h

theorem storeTo_next {m : Mode} {lo hi v : Byte} {s t : State} (h : storeTo m lo hi v s = .next t) :
    t = (s.after (operandCount m)).memWrite (effectiveAddress m s.pc lo hi s.x s.y) v := by
  rcases storeTo_cases m lo hi v s with ⟨_, e⟩ | ⟨_, _, e⟩ <;> rw [e] at h
  · exact (Host.Outcome.next.inj h).symm
  · cases h

theorem execIncZp_next {zp8 : Byte} {s t : State} (h : execIncZp zp8 s = .next t) :
    t = (s.after 1).memWrite (zext16 zp8) (aluInc (s.memRead (zext16 zp8))) := by
  rcases execIncZp_cases zp8 s with ⟨_, e⟩ | ⟨_, _, e⟩ <;> rw [e] at h
  · exact (Host.Outcome.next.inj h).symm
  · cases h

/-- A branch changes `PC` and the phase alone. -/
theorem branchIf_next {cond : Bool} {off8 : Byte} {s t : State} (h : branchIf cond off8 s = .next t) :
    t = { s with pc := t.pc, phase := .fetch } := by
  rcases branchIf_cases cond off8 s with ⟨_, _, e⟩ | ⟨_, _, e, _⟩ | ⟨_, e, _⟩ <;> rw [e] at h
  · rw [← Host.Outcome.next.inj h]
    rfl
  · rw [← Host.Outcome.next.inj h]
    rfl
  · cases h

theorem execJmpAbs_next {lo hi : Byte} {s t : State} (h : execJmpAbs lo hi s = .next t) :
    t = { s.after 2 with pc := hiLo hi lo } := by
  rcases execJmpAbs_cases lo hi s with ⟨_, e⟩ | ⟨_, _, e⟩ <;> rw [e] at h
  · exact (Host.Outcome.next.inj h).symm
  · cases h

/-- A return underflows or goes to the address in slot `CSP + 1`. -/
theorem popToPc_next {s t : State} (h : popToPc s = .next t) :
    (s.csp = 255 ∧ t = raise .stackUnderflow s) ∨
    (s.csp ≠ 255 ∧ t = { s with pc := slotAt s.cs (s.csp + 1), csp := s.csp + 1, phase := .fetch }) := by
  rcases popToPc_cases s with ⟨hc, e⟩ | ⟨hc, e⟩ <;> rw [e] at h
  · exact .inl ⟨hc, (Host.Outcome.next.inj h).symm⟩
  · exact .inr ⟨hc, (Host.Outcome.next.inj h).symm⟩

/-- A call overflows, enters its target, emits, reads or waits. -/
theorem execJsrAbs_next {lo hi : Byte} {s t : State} (h : execJsrAbs lo hi s = .next t) :
    (s.csp = 0 ∧ t = { s with pc := s.pc + 2, run := false, fault := some .stackOverflow, phase := .halted }) ∨
    (s.csp ≠ 0 ∧ isTrap s.cfg (hiLo hi lo) = false ∧
      t = { s.after 2 with pc := hiLo hi lo, cs := setSlot s.cs s.csp (s.pc + 2), csp := s.csp - 1 }) ∨
    (s.csp ≠ 0 ∧ hiLo hi lo = s.cfg.trapOut ∧
      t = { s.after 2 with output := s.output ++ [s.a], cs := setSlot s.cs s.csp (s.pc + 2) }) ∨
    (s.csp ≠ 0 ∧ hiLo hi lo = s.cfg.trapIn ∧ ∃ b rest, s.input = b :: rest ∧
      t = { s.after 2 with a := b, input := rest, cs := setSlot s.cs s.csp (s.pc + 2) }) ∨
    (s.csp ≠ 0 ∧ hiLo hi lo = s.cfg.trapIn ∧ s.input = [] ∧ t = { s with pc := s.pc - 1, phase := .ioWait }) := by
  rcases execJsrAbs_cases lo hi s with ⟨_, _, e⟩ | ⟨_, hc, e⟩ | ⟨_, hc, hn, e⟩ | ⟨_, hc, ho, e⟩ |
    ⟨_, hc, _, hi', b, rest, hb, e⟩ | ⟨_, hc, _, hi', hb, e⟩ <;> rw [e] at h
  · cases h
  · exact .inl ⟨hc, (Host.Outcome.next.inj h).symm⟩
  · exact .inr (.inl ⟨hc, hn, (Host.Outcome.next.inj h).symm⟩)
  · exact .inr (.inr (.inl ⟨hc, ho, (Host.Outcome.next.inj h).symm⟩))
  · exact .inr (.inr (.inr (.inl ⟨hc, hi', b, rest, hb, (Host.Outcome.next.inj h).symm⟩)))
  · exact .inr (.inr (.inr (.inr ⟨hc, hi', hb, (Host.Outcome.next.inj h).symm⟩)))

/-- Everything an execute phase can change, said once: a call and a return as above, and every other instruction only
registers, flags, `PC` and memory, ending at Fetch. -/
theorem exec_next {i : Instr} {s t : State} (h : exec i s = .next t) :
    (∃ lo hi, i = .jsrAbs lo hi ∧ execJsrAbs lo hi s = .next t) ∨ (i = .rts ∧ popToPc s = .next t) ∨
    (usesCallStack i = false ∧ t = { s with
      a := t.a, x := t.x, y := t.y, sp := t.sp, p := t.p, pc := t.pc, mem := t.mem, phase := .fetch }) := by
  cases i with
  | jsrAbs lo hi => exact .inl ⟨lo, hi, rfl, h⟩
  | rts => exact .inr (.inl ⟨rfl, h⟩)
  | ldaImm | ldxImm | ldyImm | adcImm | cmpImm =>
    simp only [exec, execLdaImm, execLdxImm, execLdyImm, execAdcImm, execCmpImm] at h
    exact .inr (.inr ⟨rfl, by rw [withImmediate_next h]; rfl⟩)
  | ldaZp | ldaAbs | ldxZp | ldxAbs | ldyZp | ldyAbs => exact .inr (.inr ⟨rfl, by rw [loadFrom_next h]; rfl⟩)
  | staZp | staAbs | stxZp | stxAbs | styZp | styAbs | stzZp => exact .inr (.inr ⟨rfl, by rw [storeTo_next h]; rfl⟩)
  | incZp => exact .inr (.inr ⟨rfl, by rw [execIncZp_next h]; rfl⟩)
  | beq | bne | bcs | bcc => exact .inr (.inr ⟨rfl, by rw [branchIf_next h]⟩)
  | jmpAbs => exact .inr (.inr ⟨rfl, by rw [execJmpAbs_next h]; rfl⟩)
  | inx | iny | tax | tay | txa | tya | tsx | txs => exact .inr (.inr ⟨rfl, by rw [complete_next h]; rfl⟩)

/-- A step that answers a next state halted on an unknown byte or ran the decoded instruction. -/
theorem step_next {s t : State} (h : step s = .next t) :
    s.run = true ∧ s.roomFor 1 ∧
    ((lookupOpcode s.cfg.opcodes (s.memRead s.pc) = none ∧ t = { s with
        pc := s.pc + 1, run := false, fault := some (.unknownOpcode (s.memRead s.pc)), phase := .halted }) ∨
      ∃ i rest, decodeWith s.cfg.opcodes s.bytesAtPc = .ok (i, rest) ∧ exec i s.entered = .next t) := by
  rcases step_cases s with ⟨_, e⟩ | ⟨_, _, _, e⟩ | ⟨hr, hroom, hl, e⟩ | ⟨hr, hroom, i, rest, hd, e⟩ <;> rw [e] at h
  · cases h
  · cases h
  · exact ⟨hr, hroom, .inl ⟨hl, (Host.Outcome.next.inj h).symm⟩⟩
  · exact ⟨hr, hroom, .inr ⟨i, rest, hd, h⟩⟩

end Sys2Proof.Machine
end

