-- ==== Sys2Proof/Laws/PerInstr.lean ====
section
/-! SUPPORT. Statements made for every instruction, one lemma per constructor. -/

namespace Sys2Proof.Laws.Encoding

/-- The operand bytes of an instruction are as many as its format's operand width, and the instruction is rebuilt from its
operation and them, whatever stands in for a byte the format lacks (spec/30_encoding.md R71, R72). -/
def Statement (i : Instr) : Prop :=
  (operandBytes i).length = i.opcode.format.operandWidth ∧
  ∀ d1 d2 : Byte, instrOf i.opcode ((operandBytes i).getD 0 d1) ((operandBytes i).getD 1 d2) = i

theorem ldaImm (imm8 : Byte) : Statement (.ldaImm imm8) := ⟨rfl, fun _ _ => rfl⟩
theorem ldxImm (imm8 : Byte) : Statement (.ldxImm imm8) := ⟨rfl, fun _ _ => rfl⟩
theorem ldyImm (imm8 : Byte) : Statement (.ldyImm imm8) := ⟨rfl, fun _ _ => rfl⟩
theorem ldaZp (zp8 : Byte) : Statement (.ldaZp zp8) := ⟨rfl, fun _ _ => rfl⟩
theorem ldaAbs (addrLo addrHi : Byte) : Statement (.ldaAbs addrLo addrHi) := ⟨rfl, fun _ _ => rfl⟩
theorem ldxZp (zp8 : Byte) : Statement (.ldxZp zp8) := ⟨rfl, fun _ _ => rfl⟩
theorem ldxAbs (addrLo addrHi : Byte) : Statement (.ldxAbs addrLo addrHi) := ⟨rfl, fun _ _ => rfl⟩
theorem ldyZp (zp8 : Byte) : Statement (.ldyZp zp8) := ⟨rfl, fun _ _ => rfl⟩
theorem ldyAbs (addrLo addrHi : Byte) : Statement (.ldyAbs addrLo addrHi) := ⟨rfl, fun _ _ => rfl⟩
theorem staZp (zp8 : Byte) : Statement (.staZp zp8) := ⟨rfl, fun _ _ => rfl⟩
theorem staAbs (addrLo addrHi : Byte) : Statement (.staAbs addrLo addrHi) := ⟨rfl, fun _ _ => rfl⟩
theorem stxZp (zp8 : Byte) : Statement (.stxZp zp8) := ⟨rfl, fun _ _ => rfl⟩
theorem stxAbs (addrLo addrHi : Byte) : Statement (.stxAbs addrLo addrHi) := ⟨rfl, fun _ _ => rfl⟩
theorem styZp (zp8 : Byte) : Statement (.styZp zp8) := ⟨rfl, fun _ _ => rfl⟩
theorem styAbs (addrLo addrHi : Byte) : Statement (.styAbs addrLo addrHi) := ⟨rfl, fun _ _ => rfl⟩
theorem stzZp (zp8 : Byte) : Statement (.stzZp zp8) := ⟨rfl, fun _ _ => rfl⟩
theorem inx : Statement (.inx) := ⟨rfl, fun _ _ => rfl⟩
theorem iny : Statement (.iny) := ⟨rfl, fun _ _ => rfl⟩
theorem incZp (zp8 : Byte) : Statement (.incZp zp8) := ⟨rfl, fun _ _ => rfl⟩
theorem adcImm (imm8 : Byte) : Statement (.adcImm imm8) := ⟨rfl, fun _ _ => rfl⟩
theorem cmpImm (imm8 : Byte) : Statement (.cmpImm imm8) := ⟨rfl, fun _ _ => rfl⟩
theorem beq (off8 : Byte) : Statement (.beq off8) := ⟨rfl, fun _ _ => rfl⟩
theorem bne (off8 : Byte) : Statement (.bne off8) := ⟨rfl, fun _ _ => rfl⟩
theorem bcs (off8 : Byte) : Statement (.bcs off8) := ⟨rfl, fun _ _ => rfl⟩
theorem bcc (off8 : Byte) : Statement (.bcc off8) := ⟨rfl, fun _ _ => rfl⟩
theorem jmpAbs (addrLo addrHi : Byte) : Statement (.jmpAbs addrLo addrHi) := ⟨rfl, fun _ _ => rfl⟩
theorem jsrAbs (addrLo addrHi : Byte) : Statement (.jsrAbs addrLo addrHi) := ⟨rfl, fun _ _ => rfl⟩
theorem rts : Statement (.rts) := ⟨rfl, fun _ _ => rfl⟩
theorem tax : Statement (.tax) := ⟨rfl, fun _ _ => rfl⟩
theorem tay : Statement (.tay) := ⟨rfl, fun _ _ => rfl⟩
theorem txa : Statement (.txa) := ⟨rfl, fun _ _ => rfl⟩
theorem tya : Statement (.tya) := ⟨rfl, fun _ _ => rfl⟩
theorem tsx : Statement (.tsx) := ⟨rfl, fun _ _ => rfl⟩
theorem txs : Statement (.txs) := ⟨rfl, fun _ _ => rfl⟩

/-- The statement of every instruction. -/
theorem every_instruction (i : Instr) : Statement i := by
  cases i <;> exact ⟨rfl, fun _ _ => rfl⟩

end Sys2Proof.Laws.Encoding
end

