-- ==== Sys2Proof/Tests/Slice0.lean ====
section
/-! SUPPORT. This model's own tests. The expected results are the vectors of spec/95_test_vectors.md, named V-… in the comments,
or are worked out by hand from the rule named. The last part shows, for every obligation with hypotheses, a concrete state and
operands that meet them. -/

namespace Sys2Proof.Tests

open Sys2Proof Sys2Proof.Machine

/-! ## Helpers -/

/-- The reset state with a program counter and the program's bytes there. -/
def start (pc : Addr) (bytes : List Byte) : State := loadBytes pc bytes { State.reset with pc := pc }

/-- Some fields of the next state, if there is one. -/
def look {α : Type} (f : State → α) (r : Result) : Option α :=
  match r with
  | .next t => some (f t)
  | _ => none

/-- The model's own fault, if that is the outcome. -/
def stopped (r : Result) : Option Fault :=
  match r with
  | .fault f => some f
  | _ => none

/-- The instruction decoded and the rest, if the bytes decode. -/
def decoded (bytes : List Byte) : Option (Instr × List Byte) := (decode bytes).toOption

/-- A flow's value and the program counter after it, if it goes on. -/
def goesOn {α : Type} (m : Flow α) : Option (α × Addr) :=
  match m with
  | .ok v t => some (v, t.pc)
  | _ => none

/-- The parameters with the policy that faults past the top of memory. -/
def strict : Config := { params with topPolicy := .fault }

/-- A running core at an address, in a machine that faults past the top. -/
def strictAt (pc : Addr) : State := { State.reset with pc := pc, cfg := strict }

/-! ## Well-formedness: each check refuses an ill-formed term -/

theorem test_wf_accepts_table_and_params : opcodeTable.wellFormed = true ∧ params.wellFormed = true := by decide

theorem test_wf_refuses_instruction_without_row :
    Instr.wellFormed [{ byte := 0xE8, op := .inx }] .iny = false ∧
    Instr.wellFormed [{ byte := 0xE8, op := .inx }] .inx = true := by decide

theorem test_wf_refuses_byte_with_two_operations :
    OpcodeTable.wellFormed [{ byte := 0xE8, op := .inx }, { byte := 0xE8, op := .iny }] = false := by decide

theorem test_wf_refuses_operation_with_two_bytes :
    OpcodeTable.wellFormed [{ byte := 0xE8, op := .inx }, { byte := 0xC8, op := .inx }] = false := by decide

theorem test_wf_refuses_equal_trap_addresses : Config.wellFormed { params with trapIn := 0x0020 } = false := by decide

theorem test_wf_refuses_params_with_ill_formed_table :
    Config.wellFormed { params with opcodes := [{ byte := 0xE8, op := .inx }, { byte := 0xE8, op := .iny }] } = false := by
  decide

/-! ## Decoding: the words written out from spec/30_encoding.md R71, R72, R74 -/

theorem test_decode_loads :
  decoded [0b10101001, 0x9C, 0x77] = some (.ldaImm 0x9C, [0x77]) ∧
  decoded [0b10100010, 0x9C, 0x77] = some (.ldxImm 0x9C, [0x77]) ∧
  decoded [0b10100000, 0x9C, 0x77] = some (.ldyImm 0x9C, [0x77]) ∧
  decoded [0b10100101, 0x9C, 0x77] = some (.ldaZp 0x9C, [0x77]) ∧
  decoded [0b10101101, 0x34, 0x12, 0x77] = some (.ldaAbs 0x34 0x12, [0x77]) ∧
  decoded [0b10100110, 0x9C, 0x77] = some (.ldxZp 0x9C, [0x77]) ∧
  decoded [0b10101110, 0x34, 0x12, 0x77] = some (.ldxAbs 0x34 0x12, [0x77]) ∧
  decoded [0b10100100, 0x9C, 0x77] = some (.ldyZp 0x9C, [0x77]) ∧
  decoded [0b10101100, 0x34, 0x12, 0x77] = some (.ldyAbs 0x34 0x12, [0x77]) := by decide

theorem test_decode_stores :
  decoded [0b10000101, 0x9C, 0x77] = some (.staZp 0x9C, [0x77]) ∧
  decoded [0b10001101, 0x34, 0x12, 0x77] = some (.staAbs 0x34 0x12, [0x77]) ∧
  decoded [0b10000110, 0x9C, 0x77] = some (.stxZp 0x9C, [0x77]) ∧
  decoded [0b10001110, 0x34, 0x12, 0x77] = some (.stxAbs 0x34 0x12, [0x77]) ∧
  decoded [0b10000100, 0x9C, 0x77] = some (.styZp 0x9C, [0x77]) ∧
  decoded [0b10001100, 0x34, 0x12, 0x77] = some (.styAbs 0x34 0x12, [0x77]) ∧
  decoded [0b01100100, 0x9C, 0x77] = some (.stzZp 0x9C, [0x77]) := by decide

theorem test_decode_arith :
  decoded [0b11101000, 0x77] = some (.inx, [0x77]) ∧
  decoded [0b11001000, 0x77] = some (.iny, [0x77]) ∧
  decoded [0b11100110, 0x9C, 0x77] = some (.incZp 0x9C, [0x77]) ∧
  decoded [0b01101001, 0x9C, 0x77] = some (.adcImm 0x9C, [0x77]) ∧
  decoded [0b11001001, 0x9C, 0x77] = some (.cmpImm 0x9C, [0x77]) := by decide

theorem test_decode_branches_and_jump :
  decoded [0b11110000, 0x9C, 0x77] = some (.beq 0x9C, [0x77]) ∧
  decoded [0b11010000, 0x9C, 0x77] = some (.bne 0x9C, [0x77]) ∧
  decoded [0b10110000, 0x9C, 0x77] = some (.bcs 0x9C, [0x77]) ∧
  decoded [0b10010000, 0x9C, 0x77] = some (.bcc 0x9C, [0x77]) ∧
  decoded [0b01001100, 0x34, 0x12, 0x77] = some (.jmpAbs 0x34 0x12, [0x77]) := by decide

theorem test_decode_call_and_return :
  decoded [0b00100000, 0x34, 0x12, 0x77] = some (.jsrAbs 0x34 0x12, [0x77]) ∧
  decoded [0b01100000, 0x77] = some (.rts, [0x77]) := by decide

theorem test_decode_transfers :
  decoded [0b10101010, 0x77] = some (.tax, [0x77]) ∧
  decoded [0b10101000, 0x77] = some (.tay, [0x77]) ∧
  decoded [0b10001010, 0x77] = some (.txa, [0x77]) ∧
  decoded [0b10011000, 0x77] = some (.tya, [0x77]) ∧
  decoded [0b10111010, 0x77] = some (.tsx, [0x77]) ∧
  decoded [0b10011010, 0x77] = some (.txs, [0x77]) := by decide

/-- The worked encodings of R82. -/
theorem test_decode_worked_encodings :
  decoded [0xA9, 0x41] = some (.ldaImm 0x41, []) ∧ decoded [0xAD, 0x34, 0x12] = some (.ldaAbs 0x34 0x12, []) ∧
  decoded [0x20, 0x20, 0x00] = some (.jsrAbs 0x20 0x00, []) ∧ decoded [0xF0, 0x03] = some (.beq 0x03, []) := by decide

/-- R76 and V-EX1 to V-EX5: bytes in no row. -/
theorem test_decode_refuses_unknown_bytes :
  decoded [0x00, 0, 0] = none ∧ decoded [0xEA, 0, 0] = none ∧ decoded [0xB5, 0x10, 0] = none ∧
  decoded [0xFF, 0, 0] = none ∧ decoded [0x9C, 0, 0] = none := by decide

theorem test_decode_refuses_short_bytes :
  decoded [] = none ∧ decoded [0xA9] = none ∧ decoded [0xAD, 0x34] = none := by decide

/-- Bit 0 is the least significant bit of the first byte; bits at and above `nbits` are zero. -/
theorem test_decodeTableWord :
  decodeTableWord 8 0xE8 = some .inx ∧ decodeTableWord 16 0x41A9 = some (.ldaImm 0x41) ∧
  decodeTableWord 24 0x1234AD = some (.ldaAbs 0x34 0x12) ∧ decodeTableWord 8 0x77AD = some (.ldaAbs 0 0) ∧
  decodeTableWord 8 0xEA = none := by decide

/-- The placed word is the next instruction, also in a halted core. -/
theorem test_withFetchWord_runs_next :
  look State.x (step (State.reset.withFetchWord 8 0xE8)) = some 0x01 ∧
  look State.a (step ((raise .stackOverflow (start 0xFFFF [])).withFetchWord 16 0x41A9)) = some 0x41 := by decide

/-! ## The resolver (spec/95_test_vectors.md 2.1) -/

/-- V-RES1 to V-RES3. -/
theorem test_resolve_direct :
  goesOn (resolve .immediate (start 0x0301 [])) = some (0x0301, 0x0301) ∧
  goesOn (resolve .zeroPage (start 0x0301 [0x80])) = some (0x0080, 0x0302) ∧
  goesOn (resolve .absolute (start 0x0301 [0x34, 0x12])) = some (0x1234, 0x0303) := by decide

/-- V-RES4, V-RES4b, V-RES4c, V-RES6. -/
theorem test_resolve_zero_page_indexed :
  goesOn (resolve .zeroPageX ((start 0x0301 [0xFF]).setX 0x02)) = some (0x0001, 0x0302) ∧
  goesOn (resolve .zeroPageX ((start 0x0301 [0x80]).setX 0x7F)) = some (0x00FF, 0x0302) ∧
  goesOn (resolve .zeroPageX ((start 0x0301 [0x80]).setX 0x80)) = some (0x0000, 0x0302) ∧
  goesOn (resolve .zeroPageY ((start 0x0301 [0xFF]).setY 0xFF)) = some (0x00FE, 0x0302) := by decide

/-- V-RES5, V-RES5b, V-RES7. -/
theorem test_resolve_absolute_indexed :
  goesOn (resolve .absoluteX ((start 0x0301 [0xF0, 0x12]).setX 0x20)) = some (0x1310, 0x0303) ∧
  goesOn (resolve .absoluteX ((start 0x0301 [0xFF, 0xFF]).setX 0x02)) = some (0x0001, 0x0303) ∧
  goesOn (resolve .absoluteY ((start 0x0301 [0xFF, 0x00]).setY 0x01)) = some (0x0100, 0x0303) := by decide

/-- V-RES8. -/
theorem test_resolve_selector_seven :
  look (fun t => (t.pc, t.run, t.fault)) ((resolveSelector 7 (start 0x0301 [0x80])).andThen fun _ t => .next t) =
    some (0x0301, false, some (.invalidAddressingMode 7)) ∧
  goesOn (resolveSelector 2 (start 0x0301 [0x34, 0x12])) = some (0x1234, 0x0303) := by decide

/-! ## One step of each instruction -/

/-- V-LD1. -/
theorem test_ldaImm_takes_operand :
  look (fun t => (t.a, t.x, t.y, t.p, t.pc)) (step { start 0x0000 [0xA9, 0x41] with x := 0x11, y := 0x22, p := 0x03 }) = some (0x41, 0x11, 0x22, 0x03, 0x0002) := by decide

/-- V-LD2. -/
theorem test_ldaImm_zero_sets_no_flag :
  look (fun t => (t.a, t.p)) (step { start 0x0000 [0xA9, 0x00] with a := 0x55 }) = some (0x00, 0x00) := by decide

/-- V-LD3. -/
theorem test_ldxImm :
  look (fun t => (t.x, t.pc)) (step (start 0x0000 [0xA2, 0x80])) = some (0x80, 0x0002) := by decide

/-- V-LD4. -/
theorem test_ldyImm :
  look (fun t => (t.y, t.pc)) (step (start 0x0000 [0xA0, 0xFF])) = some (0xFF, 0x0002) := by decide

/-- V-LD5. -/
theorem test_ldaZp :
  look (fun t => (t.a, t.pc)) (step ((start 0x0000 [0xA5, 0x40]).memWrite 0x0040 0x0A)) = some (0x0A, 0x0002) := by decide

/-- V-LD11. -/
theorem test_ldaZp_loads_its_own_operand :
  look (fun t => (t.a, t.pc)) (step (start 0x0000 [0xA5, 0x01])) = some (0x01, 0x0002) := by decide

/-- V-LD6. -/
theorem test_ldaAbs :
  look (fun t => (t.a, t.pc)) (step ((start 0x0000 [0xAD, 0x40, 0x00]).memWrite 0x0040 0x14)) = some (0x14, 0x0003) := by decide

/-- V-LD12. -/
theorem test_ldaAbs_unwritten_reads_zero :
  look (fun t => t.a) (step { start 0x0000 [0xAD, 0x00, 0x30] with a := 0x77 }) = some 0x00 := by decide

/-- V-LD7. -/
theorem test_ldxZp :
  look (fun t => (t.x, t.pc)) (step ((start 0x0000 [0xA6, 0x10]).memWrite 0x0010 0x03)) = some (0x03, 0x0002) := by decide

/-- V-LD8. -/
theorem test_ldxAbs :
  look (fun t => (t.x, t.pc)) (step ((start 0x0000 [0xAE, 0x00, 0x02]).memWrite 0x0200 0x7F)) = some (0x7F, 0x0003) := by decide

/-- V-LD9. -/
theorem test_ldyZp :
  look (fun t => (t.y, t.pc)) (step ((start 0x0000 [0xA4, 0xFF]).memWrite 0x00FF 0x55)) = some (0x55, 0x0002) := by decide

/-- V-LD10. -/
theorem test_ldyAbs :
  look (fun t => (t.y, t.pc)) (step ((start 0x0000 [0xAC, 0xFF, 0xFF]).memWrite 0xFFFF 0x01)) = some (0x01, 0x0003) := by decide

/-- V-ST1. -/
theorem test_staZp :
  look (fun t => (t.memRead 0x0040, t.pc)) (step { start 0x0000 [0x85, 0x40] with a := 0x0A }) = some (0x0A, 0x0002) := by decide

/-- V-ST7. -/
theorem test_staZp_at_trap_address_is_no_output :
  look (fun t => (t.memRead 0x0020, t.output)) (step { start 0x0000 [0x85, 0x20] with a := 0x41 }) = some (0x41, []) := by decide

/-- V-ST2. -/
theorem test_staAbs :
  look (fun t => (t.memRead 0x0200, t.pc)) (step { start 0x0000 [0x8D, 0x00, 0x02] with a := 0x14 }) = some (0x14, 0x0003) := by decide

/-- V-ST8. -/
theorem test_staAbs_on_its_own_operand :
  look (fun t => (t.memRead 0x0001, t.pc)) (step { start 0x0000 [0x8D, 0x01, 0x00] with a := 0x77 }) = some (0x77, 0x0003) := by decide

/-- V-ST3. -/
theorem test_stxZp :
  look (fun t => t.memRead 0x0010) (step { start 0x0000 [0x86, 0x10] with x := 0x03 }) = some 0x03 := by decide

/-- V-ST4. -/
theorem test_stxAbs :
  look (fun t => t.memRead 0x1234) (step { start 0x0000 [0x8E, 0x34, 0x12] with x := 0xAB }) = some 0xAB := by decide

/-- V-ST5. -/
theorem test_styZp :
  look (fun t => t.memRead 0x0000) (step { start 0x0100 [0x84, 0x00] with y := 0x02 }) = some 0x02 := by decide

/-- V-ST6. -/
theorem test_styAbs :
  look (fun t => t.memRead 0xFFFF) (step { start 0x0000 [0x8C, 0xFF, 0xFF] with y := 0x01 }) = some 0x01 := by decide

/-- V-STZ1. -/
theorem test_stzZp :
  look (fun t => (t.memRead 0x0050, t.p)) (step ((start 0x0000 [0x64, 0x50]).memWrite 0x0050 0xAA)) = some (0x00, 0x00) := by decide

/-- V-INC1. -/
theorem test_inx :
  look (fun t => (t.x, t.pc)) (step { start 0x0000 [0xE8] with x := 0x02 }) = some (0x03, 0x0001) := by decide

/-- V-INC2. -/
theorem test_inx_wraps_without_flag :
  look (fun t => (t.x, t.p)) (step { start 0x0000 [0xE8] with x := 0xFF }) = some (0x00, 0x00) := by decide

/-- V-INC3. -/
theorem test_iny :
  look (fun t => t.y) (step { start 0x0000 [0xC8] with y := 0x01 }) = some 0x02 := by decide

/-- V-INC4. -/
theorem test_iny_wraps :
  look (fun t => t.y) (step { start 0x0000 [0xC8] with y := 0xFF }) = some 0x00 := by decide

/-- V-INC6. -/
theorem test_incZp_wraps :
  look (fun t => (t.memRead 0x0041, t.p)) (step ((start 0x0000 [0xE6, 0x41]).memWrite 0x0041 0xFF)) = some (0x00, 0x00) := by decide

/-- V-INC7. -/
theorem test_incZp_on_its_own_operand :
  look (fun t => (t.memRead 0x0001, t.pc)) (step (start 0x0000 [0xE6, 0x01])) = some (0x02, 0x0002) := by decide

/-- V-ADD2. -/
theorem test_adcImm_wraps_without_carry :
  look (fun t => (t.a, t.p, t.pc)) (step { start 0x0000 [0x69, 0x02] with a := 0xFF }) = some (0x01, 0x00, 0x0002) := by decide

/-- V-ADD3. -/
theorem test_adcImm_adds_no_carry :
  look (fun t => (t.a, t.p)) (step { start 0x0000 [0x69, 0x01] with a := 0x10, p := 0x02 }) = some (0x11, 0x02) := by decide

/-- V-CMP2. -/
theorem test_cmpImm_unequal_clears_zero :
  look (fun t => (t.p, t.pc)) (step { start 0x0000 [0xC9, 0x03] with a := 0x02, p := 0x01 }) = some (0x00, 0x0002) := by decide

/-- V-CMP5 and V-CMP3. -/
theorem test_cmpImm_equal_keeps_other_bits :
  look (fun t => t.p) (step { start 0x0000 [0xC9, 0xFF] with a := 0xFF, p := 0xFC }) = some 0xFD ∧
  look (fun t => t.p) (step { start 0x0000 [0xC9, 0x00] with p := 0x02 }) = some 0x03 := by decide

/-- V-BR1, V-BR2. -/
theorem test_beq :
  look (fun t => t.pc) (step { start 0x0006 [0xF0, 0x03] with p := 0x01 }) = some 0x000B ∧
  look (fun t => t.pc) (step (start 0x0006 [0xF0, 0x03])) = some 0x0008 := by decide

/-- V-BR12. -/
theorem test_beq_offset_is_unsigned :
  look (fun t => t.pc) (step { start 0x0200 [0xF0, 0x80] with p := 0x01 }) = some 0x0282 := by decide

/-- V-BR9, V-BR4. -/
theorem test_bne :
  look (fun t => t.pc) (step (start 0x0010 [0xD0, 0xFB])) = some 0x010D ∧
  look (fun t => t.pc) (step { start 0x0100 [0xD0, 0x10] with p := 0x01 }) = some 0x0102 := by decide

/-- V-BR13. -/
theorem test_bne_past_the_top :
  look (fun t => t.pc) (step (start 0xFFF0 [0xD0, 0x10])) = some 0x0002 ∧
  stopped (step { start 0xFFF0 [0xD0, 0x10] with cfg := strict }) = some .pastTop := by decide

/-- V-BR5, V-BR6. -/
theorem test_bcs :
  look (fun t => t.pc) (step (start 0x0004 [0xB0, 0x02])) = some 0x0006 ∧
  look (fun t => t.pc) (step { start 0x0004 [0xB0, 0x02] with p := 0x02 }) = some 0x0008 := by decide

/-- V-BR7, V-BR8. -/
theorem test_bcc :
  look (fun t => t.pc) (step (start 0x0006 [0x90, 0x01])) = some 0x0009 ∧
  look (fun t => t.pc) (step { start 0x0006 [0x90, 0x01] with p := 0x02 }) = some 0x0008 := by decide

/-- V-JMP1. -/
theorem test_jmpAbs :
  look (fun t => t.pc) (step (start 0x0008 [0x4C, 0x02, 0x00])) = some 0x0002 := by decide

/-- V-JMP4. -/
theorem test_jmpAbs_to_trap_address_is_no_output :
  look (fun t => (t.pc, t.output, t.csp)) (step { start 0x0000 [0x4C, 0x20, 0x00] with a := 0x41 }) = some (0x0020, [], 255) := by decide

/-- V-JSR1, V-JSR4. -/
theorem test_jsrAbs_calls :
  look (fun t => (slotAt t.cs 255, t.csp, t.pc)) (step (start 0x0004 [0x20, 0x11, 0x00])) = some (0x0007, 254, 0x0011) ∧
  look (fun t => (t.csp, t.pc, t.output)) (step { start 0x0100 [0x20, 0x21, 0x00] with a := 0x41 }) = some (254, 0x0021, []) := by decide

/-- V-IO1, V-IO2, V-IO4. -/
theorem test_jsrAbs_traps :
  look (fun t => (t.output, t.pc, t.csp, slotAt t.cs 255)) (step { start 0x0002 [0x20, 0x20, 0x00] with a := 0x41 }) = some ([0x41], 0x0005, 255, 0x0005) ∧
  look (fun t => (t.a, t.pc, t.csp, t.p, t.input)) (step { start 0x0000 [0x20, 0x23, 0x00] with input := [0x48, 0x69] }) = some (0x48, 0x0003, 255, 0x00, [0x69]) ∧
  look (fun t => (t.pc, t.csp, t.phase, t.run)) (step (start 0x0010 [0x20, 0x23, 0x00])) = some (0x0010, 255, .ioWait, true) := by decide

/-- V-RTS1. -/
theorem test_rts :
  look (fun t => (t.csp, t.pc)) (step { start 0x0019 [0x60] with csp := 254, cs := setSlot State.reset.cs 255 0x0007 }) = some (255, 0x0007) := by decide

/-- V-TR1. -/
theorem test_tax :
  look (fun t => (t.x, t.a, t.pc)) (step { start 0x0000 [0xAA] with a := 0x41 }) = some (0x41, 0x41, 0x0001) := by decide

/-- V-TR2. -/
theorem test_tay :
  look (fun t => t.y) (step { start 0x0000 [0xA8] with a := 0x01 }) = some 0x01 := by decide

/-- V-TR3. -/
theorem test_txa :
  look (fun t => t.a) (step { start 0x0000 [0x8A] with x := 0x03, a := 0xFF }) = some 0x03 := by decide

/-- V-TR4. -/
theorem test_tya :
  look (fun t => t.a) (step { start 0x0000 [0x98] with y := 0xFF }) = some 0xFF := by decide

/-- V-TR8. -/
theorem test_tsx_is_not_call_depth :
  look (fun t => t.x) (step { start 0x0000 [0xBA] with csp := 200 }) = some 0xFF := by decide

/-- V-TR6, V-SP1. -/
theorem test_txs_leaves_call_stack :
  look (fun t => (t.sp, t.csp)) (step { start 0x0000 [0x9A] with x := 0x80, csp := 254 }) = some (0x80, 254) := by decide

/-! ## The call stack, the fatal conditions, reset -/

/-- V-CS2. -/
theorem test_pushes_then_pops :
  (pushAll State.reset [0xAAAA, 0xBBBB]).bind (fun t => (popAll t 2).map Prod.fst) = some [0xBBBB, 0xAAAA] := by decide

/-- V-CS3, V-JSR3, V-IO5. -/
theorem test_stack_overflow :
  look (fun t => (t.fault, t.pc, t.csp, t.run, t.phase)) (step { start 0x0300 [0x20, 0x00, 0x10] with csp := 0 }) = some (some .stackOverflow, 0x0303, 0, false, .halted) ∧
  look (fun t => (t.fault, t.output, t.pc)) (step { start 0x0300 [0x20, 0x20, 0x00] with csp := 0, a := 0x41 }) = some (some .stackOverflow, [], 0x0303) := by decide

/-- V-CS4, V-RTS2. -/
theorem test_stack_underflow :
  look (fun t => (t.fault, t.pc, t.csp, t.run, t.phase)) (step (start 0x0005 [0x60])) = some (some .stackUnderflow, 0x0006, 255, false, .halted) := by decide

/-- V-EX1, V-EX3. -/
theorem test_unknown_opcode :
  look (fun t => (t.fault, t.pc, t.run)) (step (start 0x0005 [0x00])) = some (some (.unknownOpcode 0x00), 0x0006, false) ∧
  look (fun t => (t.fault, t.pc)) (step (start 0x0100 [0xB5, 0x10])) = some (some (.unknownOpcode 0xB5), 0x0101) := by decide

/-- V-EX6. -/
theorem test_halted_core_makes_no_step :
  stopped (step (raise .stackUnderflow State.reset)) = some (.halted (some .stackUnderflow)) := by decide

/-- The numbers and the info of spec/60_exceptions.md R230. -/
theorem test_fault_record :
  (faultCode none, faultCode (some (.unknownOpcode 0xEA)), faultCode (some (.invalidAddressingMode 7)),
    faultCode (some .stackOverflow), faultCode (some .stackUnderflow)) = (0, 1, 2, 3, 4) ∧
  (faultInfo (some (.unknownOpcode 0xEA)), faultInfo (some (.invalidAddressingMode 7)), faultInfo (some .stackOverflow)) =
    (some 0xEA, some 7, none) := by decide

/-- spec/70_reset_and_hazards.md R260, R261. -/
theorem test_reset_input :
  (fun t : State => (t.run, t.fault, t.phase, t.pc, t.memRead 0x0200)) (resetInput (raise .stackOverflow (start 0x0200 [0xE8]))) =
    (true, none, .fetch, 0x0000, 0xE8) := by decide

/-- Memory's canonical form: rising, nothing redundant, and writing zero removes the entry. -/
theorem test_memory_canonical :
  (loadBytes 0x0010 [0x05, 0x00, 0x07] State.reset).mem = [(0x10, 0x05), (0x12, 0x07)] ∧
  ((loadBytes 0x0010 [0x05, 0x06] State.reset).memWrite 0x0010 0x00).mem = [(0x11, 0x06)] ∧
  Memory.wf [(0x11, 0x06), (0x10, 0x05)] = false ∧
  Memory.wf [(0x10, 0x00)] = false ∧
  Memory.wf [(0x10000, 0x01)] = false := by decide

/-! ## Witnesses: what meets the hypotheses of each obligation, every clause at a boundary -/

theorem witness_ResetMeetsInvariant : (start 0xFFFF [0x05]).mem.wf = true := by decide

theorem witness_StepKeepsInvariant : (start 0xFFFF [0xE8]).Inv ∧ ∃ t, step (start 0xFFFF [0xE8]) = .next t :=
  ⟨⟨by decide, .inl ⟨rfl, rfl, .inl rfl⟩, trivial⟩, _, rfl⟩

/-- The invariant also holds of a halted state, and of one whose step halts. -/
theorem witness_StepKeepsInvariant_halting :
    (start 0x0000 [0xEA]).Inv ∧ (∃ t, step (start 0x0000 [0xEA]) = .next t) ∧ (raise .stackUnderflow State.reset).Inv :=
  ⟨⟨by decide, .inl ⟨rfl, rfl, .inl rfl⟩, trivial⟩, ⟨_, rfl⟩, ⟨rfl, .inr ⟨rfl, by decide, rfl⟩, rfl⟩⟩

theorem witness_MemoryWriteReadsBack :
    (0x0000 : Addr) ≠ 0xFFFF ∧ ((start 0 [0xE8]).setA 0x01).mem = (start 0 [0xE8]).mem := by decide

theorem witness_CanonicalMemoriesReadingAlikeAreEqual :
    (start 0xFFFF [0x05]).mem.wf = true ∧ ((start 0xFFFF [0x05]).setA 0x01).mem.wf = true ∧
    ∀ ea : Addr, (start 0xFFFF [0x05]).memRead ea = ((start 0xFFFF [0x05]).setA 0x01).memRead ea :=
  ⟨by decide, by decide, fun _ => rfl⟩

/-- Room at the boundary, in the machine that faults past the top. -/
theorem strict_room :
    (strictAt 0xFFFE).roomFor 1 ∧ (strictAt 0xFFFD).roomFor 2 ∧ (strictAt 0xFFFC).roomFor 3 ∧
    ¬ (strictAt 0xFFFF).roomFor 1 ∧ ¬ (strictAt 0xFFFE).roomFor 2 := by
  unfold State.roomFor
  decide

theorem witness_StepRunsDecodedInstruction :
    ((strictAt 0xFFFE).memWrite 0xFFFE 0xE8).run = true ∧ ((strictAt 0xFFFE).memWrite 0xFFFE 0xE8).roomFor 1 ∧
    decodeWith opcodeTable ((strictAt 0xFFFE).memWrite 0xFFFE 0xE8).bytesAtPc = .ok (.inx, [0x00, 0x00]) :=
  ⟨rfl, strict_room.1, rfl⟩

theorem witness_EncodeThenDecodeGivesInstruction :
    opcodeTable.wellFormed = true ∧ Instr.wellFormed opcodeTable .txs = true ∧
    Instr.wellFormed opcodeTable (.jsrAbs 0xFF 0xFF) = true := by decide

theorem witness_DecodedBytesAreTheEncoding :
    opcodeTable.wellFormed = true ∧ decodeWith opcodeTable [0x20, 0x23, 0x00, 0x55] = .ok (.jsrAbs 0x23 0x00, [0x55]) :=
  ⟨by decide, rfl⟩

theorem witness_OnlyThirtyFourBytesAreOpcodes :
    (lookupOpcode opcodeTable 0x9A).isSome = true ∧ lookupOpcode opcodeTable 0x00 = none ∧
    lookupOpcode opcodeTable 0xFF = none := by decide

theorem witness_PlacedWordRunsNext :
    (strictAt 0xFFFE).cfg.opcodes = opcodeTable ∧ (strictAt 0xFFFE).roomFor 1 ∧
    decodeTableWord 24 0x1234AD = some (.ldaAbs 0x34 0x12) :=
  ⟨rfl, strict_room.1, by decide⟩

theorem witness_ImmediateLoadsTakeTheOperand : (strictAt 0xFFFE).roomFor 1 := strict_room.1

theorem witness_MemoryLoadsTakeTheByte : (strictAt 0xFFFE).roomFor 1 ∧ (strictAt 0xFFFD).roomFor 2 :=
  ⟨strict_room.1, strict_room.2.1⟩

theorem witness_StoresWriteTheRegister : (strictAt 0xFFFE).roomFor 1 ∧ (strictAt 0xFFFD).roomFor 2 :=
  ⟨strict_room.1, strict_room.2.1⟩

/-- One form of each stored value, at the ends of the address ranges. -/
theorem witness_StoringFormsWriteOneByte :
    (storeAddress (.staAbs 0xFF 0xFF) State.reset = some 0xFFFF ∧ ∃ t, exec (.staAbs 0xFF 0xFF) State.reset = .next t) ∧
    (storeAddress (.stxZp 0x00) State.reset = some 0x0000 ∧ ∃ t, exec (.stxZp 0x00) State.reset = .next t) ∧
    (storeAddress (.styZp 0xFF) State.reset = some 0x00FF ∧ ∃ t, exec (.styZp 0xFF) State.reset = .next t) ∧
    (storeAddress (.stzZp 0x50) State.reset = some 0x0050 ∧ ∃ t, exec (.stzZp 0x50) State.reset = .next t) ∧
    (storeAddress (.incZp 0xFF) State.reset = some 0x00FF ∧ ∃ t, exec (.incZp 0xFF) State.reset = .next t) :=
  ⟨⟨by decide, _, rfl⟩, ⟨by decide, _, rfl⟩, ⟨by decide, _, rfl⟩, ⟨by decide, _, rfl⟩, ⟨by decide, _, rfl⟩⟩

/-- A register form, a call, a fatal return. -/
theorem witness_OtherFormsKeepMemory :
    (storeAddress .inx State.reset = none ∧ ∃ t, exec .inx State.reset = .next t) ∧
    (storeAddress (.jsrAbs 0x00 0x10) State.reset = none ∧ ∃ t, exec (.jsrAbs 0x00 0x10) State.reset = .next t) ∧
    (storeAddress .rts State.reset = none ∧ ∃ t, exec .rts State.reset = .next t) :=
  ⟨⟨rfl, _, rfl⟩, ⟨rfl, _, rfl⟩, ⟨rfl, _, rfl⟩⟩

/-- Both clauses at the last opcode byte that can be fetched: the stored byte there is `INX`, or no opcode. -/
theorem witness_StoreIsSeenByNextFetch :
    storeAddress (.staAbs 0xFE 0xFF) ((strictAt 0xFFFC).setA 0xE8) = some 0xFFFE ∧ (strictAt 0xFFFC).run = true ∧
    (∃ t, exec (.staAbs 0xFE 0xFF) ((strictAt 0xFFFC).setA 0xE8) = .next t ∧ t.pc = 0xFFFE ∧ t.roomFor 1) ∧
    decodeWith opcodeTable [byteAfterStore (.staAbs 0xFE 0xFF) ((strictAt 0xFFFC).setA 0xE8) 0xFFFE 0xFFFE, 0x00, 0x00] =
      .ok (.inx, [0x00, 0x00]) ∧
    (∃ t, exec (.staAbs 0xFE 0xFF) ((strictAt 0xFFFC).setA 0xEA) = .next t ∧ t.pc = 0xFFFE ∧ t.roomFor 1) ∧
    lookupOpcode opcodeTable (byteAfterStore (.staAbs 0xFE 0xFF) ((strictAt 0xFFFC).setA 0xEA) 0xFFFE 0xFFFE) = none :=
  ⟨by decide, rfl, ⟨_, rfl, by decide, by unfold State.roomFor; decide⟩, rfl,
    ⟨_, rfl, by decide, by unfold State.roomFor; decide⟩, by decide⟩

/-- The first clause where the store is over an operand byte: `INC zp` makes the next instruction `JMP 0x0100`. -/
theorem witness_StoreIsSeenByNextFetch_operand :
    storeAddress (.incZp 0x04) (start 0x0001 [0x04, 0x4C, 0x00, 0x00]) = some 0x0004 ∧
    (∃ t, exec (.incZp 0x04) (start 0x0001 [0x04, 0x4C, 0x00, 0x00]) = .next t ∧ t.pc = 0x0002 ∧ t.roomFor 1) ∧
    decodeWith opcodeTable
      [byteAfterStore (.incZp 0x04) (start 0x0001 [0x04, 0x4C, 0x00, 0x00]) 0x0004 0x0002,
       byteAfterStore (.incZp 0x04) (start 0x0001 [0x04, 0x4C, 0x00, 0x00]) 0x0004 0x0003,
       byteAfterStore (.incZp 0x04) (start 0x0001 [0x04, 0x4C, 0x00, 0x00]) 0x0004 0x0004] = .ok (.jmpAbs 0x00 0x01, []) :=
  ⟨by decide, ⟨_, rfl, by decide, by unfold State.roomFor; decide⟩, rfl⟩

theorem witness_IncrementsAndAddWrap : (strictAt 0xFFFE).roomFor 1 := strict_room.1

theorem witness_CompareWritesZeroAlone : (strictAt 0xFFFE).roomFor 1 := strict_room.1

theorem witness_OnlyCompareWritesStatus :
    Instr.opcode (.adcImm 0xFF) ≠ .cmpImm ∧ ∃ t, exec (.adcImm 0xFF) { State.reset with p := 0xFF } = .next t :=
  ⟨by decide, _, rfl⟩

/-- A compare and a step are next states; a run with Carry clear; Carry clear and set with every other bit the other way. -/
theorem witness_CarryIsNeverComputed :
    (∃ t, exec (.cmpImm 0xFF) { State.reset with p := 0xFF } = .next t) ∧ (∃ t, step (start 0x0000 [0xC9]) = .next t) ∧
    carryFlag (start 0x0000 [0xC9]).p = false ∧ carryFlag 0xFD = false ∧ carryFlag 0x02 = true ∧
    (∃ t, Host.Core.run Sys2Proof.core 1 (start 0x0000 [0xC9]) = .next t) :=
  ⟨⟨_, rfl⟩, ⟨_, rfl⟩, by decide, by decide, by decide, ⟨_, rfl⟩⟩

/-- Room for the operand alone, and for the target with the longest offset, in the machine that faults past the top. -/
theorem witness_CarryIsNeverComputed_room :
    (strictAt 0xFFFE).roomFor 1 ∧ (strictAt 0xFEFF).roomFor 1 ∧
    (branchBaseAddr .nextInstruction 0xFEFF (0xFEFF + 1)).toNat + (0xFF : Byte).toNat ≤ 0xFFFF ∧
    (branchBaseAddr .operandByte 0xFF00 (0xFF00 + 1)).toNat + (0xFF : Byte).toNat ≤ 0xFFFF := by
  unfold State.roomFor
  decide

/-- All six bits and the lowest of them; and the one instruction that writes `P`, with all six set. -/
theorem witness_UnusedStatusBitsAreInert :
    (0xFC : Byte) &&& 0x03 = 0x00 ∧ (0x04 : Byte) &&& 0x03 = 0x00 ∧
    ∃ t, exec (.cmpImm 0x00) { State.reset with p := 0xFC } = .next t :=
  ⟨by decide, by decide, _, rfl⟩

/-- Both outcomes of each branch, at the last address that has room for the operand. -/
theorem witness_BranchesGoForwardOrFallThrough :
    (strictAt 0xFFFE).roomFor 1 ∧
    zeroFlag 0x00 = false ∧ zeroFlag 0x01 = true ∧ carryFlag 0x00 = false ∧ carryFlag 0x02 = true ∧
    (strictAt 0xFFFE).cfg.branchBase = .nextInstruction ∧ ((strictAt 0xFFFE).after 1).roomFor (0x00 : Byte).toNat ∧
    (strictAt 0xFEFF).roomFor 1 ∧ ((strictAt 0xFEFF).after 1).roomFor (0xFF : Byte).toNat := by
  unfold State.roomFor
  decide

/-- The other base, with the longest branch that has room. -/
theorem witness_BranchesGoForwardOrFallThrough_operandByte :
    { strictAt 0xFF00 with cfg := { strict with branchBase := .operandByte } }.roomFor 1 ∧
    { strictAt 0xFF00 with cfg := { strict with branchBase := .operandByte } }.roomFor (0xFF : Byte).toNat := by
  unfold State.roomFor
  decide

theorem witness_JumpGoesToItsOperand : (strictAt 0xFFFD).roomFor 2 := strict_room.2.1

theorem witness_PushWritesSlotThenMovesPointer :
    State.reset.csp ≠ 0 ∧ { State.reset with csp := 1 }.csp ≠ 0 ∧ { State.reset with csp := 0 }.csp = 0 ∧
    (254 : Byte) ≠ State.reset.csp := by decide

theorem witness_PopMovesPointerThenReadsSlot :
    { State.reset with csp := 0 }.csp ≠ 255 ∧ { State.reset with csp := 254 }.csp ≠ 255 ∧ State.reset.csp = 255 := by
  decide

/-- Sequences exactly as long as the room, and one longer. -/
theorem witness_PushesThenPopsReverse :
    [(0xAAAA : Addr), 0xBBBB].length ≤ { State.reset with csp := 2 }.csp.toNat ∧
    (List.replicate 255 (0x0003 : Addr)).length ≤ State.reset.csp.toNat ∧
    State.reset.csp.toNat < (List.replicate 256 (0x0003 : Addr)).length := by
  refine ⟨by decide, ?_, ?_⟩ <;> rw [List.length_replicate] <;> decide

/-- The addresses beside the traps are ordinary targets. -/
theorem witness_CallPushesNextInstructionAddress :
    (strictAt 0xFFFD).roomFor 2 ∧ { strictAt 0xFFFD with csp := 1 }.csp ≠ 0 ∧
    isTrap params (hiLo 0x00 0x21) = false ∧ isTrap params (hiLo 0x00 0x22) = false ∧ isTrap params 0xFFFF = false :=
  ⟨strict_room.2.1, by decide, by decide, by decide, by decide⟩

theorem witness_CallOnFullStackOverflows :
    { strictAt 0xFFFD with csp := 0 }.roomFor 2 ∧ { strictAt 0xFFFD with csp := 0 }.csp = 0 :=
  ⟨strict_room.2.1, rfl⟩

theorem witness_ReturnUsesPoppedAddress :
    { State.reset with csp := 254 }.csp ≠ 255 ∧ { State.reset with csp := 0 }.csp ≠ 255 ∧ State.reset.csp = 255 := by decide

theorem witness_ReturnUndoesCall :
    ∃ t, exec (.jsrAbs 0x00 0x10) { State.reset with csp := 1 } = .next t ∧ t.run = true ∧
      isTrap params (hiLo 0x10 0x00) = false ∧ { t with a := 0x77, sp := 0x00 }.cs = t.cs ∧
      { t with a := 0x77, sp := 0x00 }.csp = t.csp :=
  ⟨_, rfl, rfl, by decide, rfl, rfl⟩

/-- A step that keeps the call stack, one that pushes and one that pops. -/
theorem witness_CallStackIsAList :
    (∃ t, step (start 0x0000 [0xE8]) = .next t) ∧ (∃ t, step (start 0x0000 [0x20, 0x00, 0x10]) = .next t) ∧
    (∃ t, step { start 0x0000 [0x60] with csp := 0 } = .next t) :=
  ⟨⟨_, rfl⟩, ⟨_, rfl⟩, ⟨_, rfl⟩⟩

theorem witness_LiveSlotsAreNeverOverwritten :
    (∃ t, step { start 0x0000 [0x20, 0x00, 0x10] with csp := 254 } = .next t) ∧
    { start 0x0000 [0x20, 0x00, 0x10] with csp := 254 }.csp < 255 :=
  ⟨⟨_, rfl⟩, by decide⟩

/-- Two different states that differ in the next free slot. -/
theorem witness_StaleSlotsAreUnobservable :
    sameButStaleSlots { State.reset with csp := 254 }
      { State.reset with csp := 254, cs := setSlot State.reset.cs 254 0x1234 } ∧
    slotAt (setSlot State.reset.cs 254 0x1234) 254 ≠ slotAt State.reset.cs 254 :=
  ⟨⟨rfl, fun k hk => slotAt_setSlot_other _ _ (by rintro rfl; exact absurd hk (by decide))⟩, by decide⟩

theorem witness_StackPointerIsDataOnly : Instr.rts ≠ .tsx ∧ Instr.rts ≠ .txs := by decide

theorem witness_IndexedModesMaskOrWrap : (strictAt 0xFFFE).roomFor 1 ∧ (strictAt 0xFFFD).roomFor 2 :=
  ⟨strict_room.1, strict_room.2.1⟩

theorem witness_DirectModesFormTheAddress : (strictAt 0xFFFE).roomFor 1 ∧ (strictAt 0xFFFD).roomFor 2 :=
  ⟨strict_room.1, strict_room.2.1⟩

/-- Both clauses: a call to each trap, with a character ready, and the least call-stack pointer that can push. -/
theorem witness_TrappedCallTransfersOneCharacter :
    { strictAt 0xFFFD with csp := 1, input := [0x48] }.roomFor 2 ∧
    { strictAt 0xFFFD with csp := 1, input := [0x48] }.csp ≠ 0 ∧ hiLo 0x00 0x20 = params.trapOut ∧
    hiLo 0x00 0x23 = params.trapIn ∧ params.trapIn ≠ params.trapOut ∧
    { strictAt 0xFFFD with csp := 1, input := [0x48] }.input = 0x48 :: [] :=
  ⟨strict_room.2.1, by decide, by decide, by decide, by decide, rfl⟩

/-- A call to the input trap in the last place that has room for it. -/
theorem witness_InputTrapWaitsForCharacter :
    ∃ s : State, s.run = true ∧ s.roomFor 3 ∧ s.csp ≠ 0 ∧ s.input = [] ∧ s.cfg = strict ∧
      decodeWith s.cfg.opcodes s.bytesAtPc = .ok (.jsrAbs 0x23 0x00, []) ∧ hiLo 0x00 0x23 = s.cfg.trapIn ∧
      s.cfg.trapIn ≠ s.cfg.trapOut :=
  ⟨loadBytes 0xFFFC [0x20, 0x23, 0x00] (strictAt 0xFFFC), rfl, strict_room.2.2.1, by decide, rfl, rfl, rfl, by decide,
    by decide⟩

/-- Each of the three clauses: no host I/O, output, input. -/
theorem witness_OnlyTrappedCallsDoHostIo :
    (∃ t, exec (.jmpAbs 0x20 0x00) State.reset = .next t) ∧ (∃ t, exec (.jsrAbs 0x20 0x00) State.reset = .next t) ∧
    (∃ t, exec (.jsrAbs 0x23 0x00) { State.reset with input := [0x48] } = .next t) :=
  ⟨⟨_, rfl⟩, ⟨_, rfl⟩, ⟨_, rfl⟩⟩

theorem witness_OutputIsNeverWithdrawn :
    ∃ t, Host.Core.run Sys2Proof.core 1 { start 0x0000 [0x20, 0x20, 0x00] with output := [0x01] } = .next t :=
  ⟨_, rfl⟩

/-- A call to the output trap whose address is the byte next to the call's own, on either side. -/
theorem witness_TrapAddressByteIsNotFetched :
    (∃ rest, decodeWith opcodeTable (start 0x0021 [0x20, 0x20, 0x00]).bytesAtPc = .ok (.jsrAbs 0x20 0x00, rest)) ∧
    (∃ rest, decodeWith opcodeTable (start 0x001D [0x20, 0x20, 0x00]).bytesAtPc = .ok (.jsrAbs 0x20 0x00, rest)) ∧
    isTrap params (hiLo 0x00 0x20) = true ∧
    hiLo 0x00 0x20 ≠ 0x0021 ∧ hiLo 0x00 0x20 ≠ 0x0021 + 1 ∧ hiLo 0x00 0x20 ≠ 0x0021 + 2 ∧
    hiLo 0x00 0x20 ≠ 0x001D ∧ hiLo 0x00 0x20 ≠ 0x001D + 1 ∧ hiLo 0x00 0x20 ≠ 0x001D + 2 :=
  ⟨⟨_, rfl⟩, ⟨_, rfl⟩, by decide, by decide, by decide, by decide, by decide, by decide, by decide⟩

theorem witness_UnknownOpcodeHaltsPastTheByte :
    (strictAt 0xFFFE).run = true ∧ (strictAt 0xFFFE).roomFor 1 ∧
    lookupOpcode (strictAt 0xFFFE).cfg.opcodes ((strictAt 0xFFFE).memRead (strictAt 0xFFFE).pc) = none :=
  ⟨rfl, strict_room.1, by decide⟩

theorem witness_HaltedIsAbsorbing : (raise .stackOverflow State.reset).run = false := rfl

/-- One halting step for each of the three clauses. -/
theorem witness_FatalConditionsHaveTheirCauses :
    (∃ t, step State.reset = .next t ∧ t.run = false) ∧
    (∃ t, step { start 0x0000 [0x20, 0x00, 0x10] with csp := 0 } = .next t ∧ t.run = false) ∧
    (∃ t, step (start 0x0000 [0x60]) = .next t ∧ t.run = false) ∧ State.reset.run = true :=
  ⟨⟨_, rfl, rfl⟩, ⟨_, rfl, rfl⟩, ⟨_, rfl, rfl⟩, rfl⟩

theorem witness_RunningCoreAlwaysSteps :
    (start 0xFFFF [0x20]).run = true ∧ (start 0xFFFF [0x20]).cfg.topPolicy = .wrap := ⟨rfl, rfl⟩

/-- The first two clauses and the last: the fetch increment, an operand past the top, and the outcome itself. -/
theorem witness_TopPolicyFaultStopsPastTop :
    (strictAt 0xFFFF).run = true ∧ (strictAt 0xFFFF).cfg.topPolicy = .fault ∧ (strictAt 0xFFFF).pc = 0xFFFF ∧
    (∃ rest, decodeWith opcodeTable (loadBytes 0xFFFE [0xA9] (strictAt 0xFFFE)).bytesAtPc = .ok (.ldaImm 0x00, rest)) ∧
    0xFFFF < (0xFFFE : Addr).toNat + 1 + (Instr.ldaImm 0x00).opcode.format.operandWidth ∧
    step (strictAt 0xFFFF) = .fault .pastTop :=
  ⟨rfl, rfl, rfl, ⟨_, rfl⟩, by decide, rfl⟩

/-- The branch clause: the shortest offset past the top, from either base, and a taken branch of each kind. -/
theorem witness_TopPolicyFaultStopsPastTop_branch :
    (strictAt 0xFFFE).cfg.branchBase = .nextInstruction ∧
    0xFFFF < (strictAt 0xFFFE).pc.toNat + 1 + (0x01 : Byte).toNat ∧
    { strictAt 0xFFFE with cfg := { strict with branchBase := .operandByte } }.cfg.branchBase = .operandByte ∧
    0xFFFF < (strictAt 0xFFFE).pc.toNat + (0x02 : Byte).toNat ∧
    zeroFlag { strictAt 0xFFFE with p := 0x01 }.p = true ∧ (!zeroFlag (strictAt 0xFFFE).p) = true ∧
    carryFlag { strictAt 0xFFFE with p := 0x02 }.p = true ∧ (!carryFlag (strictAt 0xFFFE).p) = true := by decide

/-- The last clause's other two cases: a step that stops at an operand, and one that stops at a taken branch. -/
theorem witness_TopPolicyFaultStopsPastTop_last :
    step (loadBytes 0xFFFE [0xA9] (strictAt 0xFFFE)) = .fault .pastTop ∧
    step (loadBytes 0xFFFC [0xD0, 0x02] (strictAt 0xFFFC)) = .fault .pastTop ∧
    step (loadBytes 0xFFFC [0xD0, 0x03] { strictAt 0xFFFC with cfg := { strict with branchBase := .operandByte } }) =
      .fault .pastTop :=
  ⟨rfl, rfl, rfl⟩

/-- Branches that do not stop: one that is not taken, and one whose target is 0xFFFF exactly, from either base. -/
theorem test_branch_at_the_top_does_not_stop :
    look State.pc (step (loadBytes 0xFFFC [0xF0, 0xFF] (strictAt 0xFFFC))) = some 0xFFFE ∧
    look State.pc (step (loadBytes 0xFFFC [0xD0, 0x01] (strictAt 0xFFFC))) = some 0xFFFF ∧
    look State.pc
      (step (loadBytes 0xFFFC [0xD0, 0x02] { strictAt 0xFFFC with cfg := { strict with branchBase := .operandByte } })) =
      some 0xFFFF := by decide

theorem witness_ProgramCounterLaw :
    (start 0xFFFF [0xA9]).run = true ∧
    (∃ rest, decodeWith opcodeTable (start 0xFFFF [0xA9]).bytesAtPc = .ok (.ldaImm 0x00, rest)) ∧
    setsPc (.ldaImm 0x00) = false ∧ ∃ t, step (start 0xFFFF [0xA9]) = .next t :=
  ⟨rfl, ⟨_, rfl⟩, rfl, _, rfl⟩

/-- An instruction outside every list of writers, and one that only the call clauses except. -/
theorem witness_RegistersChangeOnlyByTheirWriters :
    (∃ t, exec (.cmpImm 0xFF) State.reset = .next t) ∧ writesA (.cmpImm 0xFF) = false ∧ writesX (.cmpImm 0xFF) = false ∧
    writesY (.cmpImm 0xFF) = false ∧ Instr.cmpImm 0xFF ≠ .txs ∧ callTarget (.cmpImm 0xFF) = none ∧
    usesCallStack (.cmpImm 0xFF) = false ∧ (∃ t, exec (.jsrAbs 0x20 0x00) State.reset = .next t) ∧
    callTarget (.jsrAbs 0x20 0x00) ≠ some params.trapIn :=
  ⟨⟨_, rfl⟩, rfl, rfl, rfl, by decide, rfl, rfl, ⟨_, rfl⟩, by decide⟩

end Sys2Proof.Tests
end

section
/-! PROOFS. The writes of the status register, bit by bit. -/

namespace Sys2Proof.Machine

/-- `P.Z <- z` keeps every bit but bit 0 (spec/43_arith.md R164). -/
theorem setZero_getLsbD (p : Byte) (z : Bool) {k : Nat} (hk : 1 ≤ k) : (setZero p z).getLsbD k = p.getLsbD k := by
  have one : (1#8 <<< zBit).getLsbD k = false := by simp [zBit]; omega
  have bit : (if z then 1#8 <<< zBit else 0#8).getLsbD k = false := by cases z <;> simp [one]
  by_cases h8 : k < 8
  · rw [setZero, BitVec.getLsbD_or, BitVec.getLsbD_and, BitVec.getLsbD_not, one, bit]
    simp [h8]
  · rw [BitVec.getLsbD_of_ge _ _ (by omega), BitVec.getLsbD_of_ge _ _ (by omega)]

/-- Bit 0 of `P` after `P.Z <- z` is `z`. -/
theorem setZero_getLsbD_zero (p : Byte) (z : Bool) : (setZero p z).getLsbD 0 = z := by
  cases z <;> simp [setZero, zBit]

/-- A mask without bits 0 and 1 flips neither of them. -/
theorem getLsbD_xor_of_and_three {m : Byte} (hm : m &&& 0x03 = 0x00) (p : Byte) {k : Nat} (hk : k < 2) :
    (p ^^^ m).getLsbD k = p.getLsbD k := by
  have bit : m.getLsbD k = false := by
    have := congrArg (·.getLsbD k) hm
    interval_cases k <;> simpa using this
  rw [BitVec.getLsbD_xor, bit, Bool.xor_false]

/-- A write of Zero and a flip of upper bits do not meet. -/
theorem setZero_xor_of_and_three {m : Byte} (hm : m &&& 0x03 = 0x00) (p : Byte) (z : Bool) :
    setZero (p ^^^ m) z = setZero p z ^^^ m := by
  refine BitVec.eq_of_getLsbD_eq fun k _ => ?_
  by_cases hk : k = 0
  · rw [hk, setZero_getLsbD_zero, getLsbD_xor_of_and_three hm _ (by decide), setZero_getLsbD_zero]
  · rw [setZero_getLsbD _ z (by omega), BitVec.getLsbD_xor, BitVec.getLsbD_xor, setZero_getLsbD _ z (by omega)]

end Sys2Proof.Machine
end

section
/-! PROOFS. What an instruction does to registers, flags and memory, and what it leaves unchanged. -/

namespace Sys2Proof.Machine

/-- What an instruction does to `A`, `X`, `Y`, `SP`, `P` and `M` (spec/10_state.md R37), the transfer of control and the input
trap left aside; `exec_next_data` ties it to `exec`. -/
def dataEffect (i : Instr) (s : State) : State :=
  match i with
  | .ldaImm imm8 => s.setA imm8
  | .ldxImm imm8 => s.setX imm8
  | .ldyImm imm8 => s.setY imm8
  | .ldaZp zp8 => s.setA (s.memRead (zext16 zp8))
  | .ldaAbs addrLo addrHi => s.setA (s.memRead (hiLo addrHi addrLo))
  | .ldxZp zp8 => s.setX (s.memRead (zext16 zp8))
  | .ldxAbs addrLo addrHi => s.setX (s.memRead (hiLo addrHi addrLo))
  | .ldyZp zp8 => s.setY (s.memRead (zext16 zp8))
  | .ldyAbs addrLo addrHi => s.setY (s.memRead (hiLo addrHi addrLo))
  | .staZp zp8 => s.memWrite (zext16 zp8) s.a
  | .staAbs addrLo addrHi => s.memWrite (hiLo addrHi addrLo) s.a
  | .stxZp zp8 => s.memWrite (zext16 zp8) s.x
  | .stxAbs addrLo addrHi => s.memWrite (hiLo addrHi addrLo) s.x
  | .styZp zp8 => s.memWrite (zext16 zp8) s.y
  | .styAbs addrLo addrHi => s.memWrite (hiLo addrHi addrLo) s.y
  | .stzZp zp8 => s.memWrite (zext16 zp8) aluZero
  | .inx => s.setX (aluInc s.x)
  | .iny => s.setY (aluInc s.y)
  | .incZp zp8 => s.memWrite (zext16 zp8) (aluInc (s.memRead (zext16 zp8)))
  | .adcImm imm8 => s.setA (aluAdd s.a imm8)
  | .cmpImm imm8 => s.setP (setZero s.p (aluEq s.a imm8))
  | .tax => s.setX s.a
  | .tay => s.setY s.a
  | .txa => s.setA s.x
  | .tya => s.setA s.y
  | .tsx => s.setX s.sp
  | .txs => s.setSp s.x
  | .beq _ | .bne _ | .bcs _ | .bcc _ | .jmpAbs _ _ | .jsrAbs _ _ | .rts => s

/-- Without the call stack, an execute phase is the data effect, a new `PC`, and the return to Fetch. -/
theorem exec_next_noCallStack {i : Instr} {s t : State} (hi : usesCallStack i = false) (h : exec i s = .next t) :
    t = { dataEffect i s with pc := t.pc, phase := .fetch } := by
  cases i with
  | jsrAbs | rts => cases hi
  | ldaImm | ldxImm | ldyImm | adcImm | cmpImm =>
    simp only [exec, execLdaImm, execLdxImm, execLdyImm, execAdcImm, execCmpImm] at h
    rw [withImmediate_next h]
    rfl
  | ldaZp | ldaAbs | ldxZp | ldxAbs | ldyZp | ldyAbs => rw [loadFrom_next h]; rfl
  | staZp | staAbs | stxZp | stxAbs | styZp | styAbs | stzZp => rw [storeTo_next h]; rfl
  | incZp => rw [execIncZp_next h]; rfl
  | beq | bne | bcs | bcc => rw [branchIf_next h]; rfl
  | jmpAbs => rw [execJmpAbs_next h]; rfl
  | inx | iny | tax | tay | txa | tya | tsx | txs => rw [complete_next h]; rfl

/-- Whatever the instruction, calls and returns included: outside `A` and what control and the host channels write, the next
state is the data effect. -/
theorem exec_next_data {i : Instr} {s t : State} (h : exec i s = .next t) :
    t = { dataEffect i s with
      a := t.a, pc := t.pc, cs := t.cs, csp := t.csp, run := t.run, fault := t.fault, phase := t.phase,
      output := t.output, input := t.input } := by
  rcases exec_next h with ⟨lo, hi, rfl, hj⟩ | ⟨rfl, hp⟩ | ⟨hu, _⟩
  · rcases execJsrAbs_next hj with ⟨_, e⟩ | ⟨_, _, e⟩ | ⟨_, _, e⟩ | ⟨_, _, _, _, _, e⟩ | ⟨_, _, _, e⟩ <;> rw [e] <;> rfl
  · rcases popToPc_next hp with ⟨_, e⟩ | ⟨_, e⟩ <;> rw [e] <;> rfl
  · rw [exec_next_noCallStack hu h]

/-! ## What the data effect leaves unchanged -/

@[simp] theorem dataEffect_cfg (i : Instr) (s : State) : (dataEffect i s).cfg = s.cfg := by
  cases i <;> rfl

theorem dataEffect_a {i : Instr} (hi : writesA i = false) (s : State) : (dataEffect i s).a = s.a := by
  cases i with
  | ldaImm | ldaZp | ldaAbs | adcImm | txa | tya => cases hi
  | _ => rfl

theorem dataEffect_x {i : Instr} (hi : writesX i = false) (s : State) : (dataEffect i s).x = s.x := by
  cases i with
  | ldxImm | ldxZp | ldxAbs | inx | tax | tsx => cases hi
  | _ => rfl

theorem dataEffect_y {i : Instr} (hi : writesY i = false) (s : State) : (dataEffect i s).y = s.y := by
  cases i with
  | ldyImm | ldyZp | ldyAbs | iny | tay => cases hi
  | _ => rfl

theorem dataEffect_sp {i : Instr} (hi : i ≠ .txs) (s : State) : (dataEffect i s).sp = s.sp := by
  cases i with
  | txs => exact absurd rfl hi
  | _ => rfl

theorem dataEffect_p {i : Instr} (hi : i.opcode ≠ .cmpImm) (s : State) : (dataEffect i s).p = s.p := by
  cases i with
  | cmpImm => exact absurd rfl hi
  | _ => rfl

/-- A compare writes bit 0 of `P` and no other instruction writes any bit of it, so every other bit is kept. -/
theorem dataEffect_p_getLsbD (i : Instr) (s : State) {k : Nat} (hk : 1 ≤ k) :
    (dataEffect i s).p.getLsbD k = s.p.getLsbD k := by
  by_cases hi : i.opcode = .cmpImm
  · cases i with
    | cmpImm imm8 => exact setZero_getLsbD s.p (aluEq s.a imm8) hk
    | _ => cases hi
  · rw [dataEffect_p hi]

/-- The data effect on memory is one write or none. -/
theorem dataEffect_mem_wf (i : Instr) {s : State} (h : s.mem.wf = true) : (dataEffect i s).mem.wf = true := by
  cases i with
  | staZp | staAbs | stxZp | stxAbs | styZp | styAbs | stzZp | incZp => exact memWrite_wf s _ _ h
  | _ => exact h

/-! ## What an execute phase leaves unchanged -/

section

variable {i : Instr} {s t : State}

theorem exec_next_x (h : exec i s = .next t) : t.x = (dataEffect i s).x := by
  rw [exec_next_data h]

theorem exec_next_y (h : exec i s = .next t) : t.y = (dataEffect i s).y := by
  rw [exec_next_data h]

theorem exec_next_sp (h : exec i s = .next t) : t.sp = (dataEffect i s).sp := by
  rw [exec_next_data h]

theorem exec_next_p (h : exec i s = .next t) : t.p = (dataEffect i s).p := by
  rw [exec_next_data h]

theorem exec_next_mem (h : exec i s = .next t) : t.mem = (dataEffect i s).mem := by
  rw [exec_next_data h]

theorem exec_next_cfg (h : exec i s = .next t) : t.cfg = s.cfg := by
  rw [exec_next_data h]
  exact dataEffect_cfg i s

/-- `A` after an execute phase is the data effect's, but after a call to the input trap. -/
theorem exec_next_a (h : exec i s = .next t) (hin : callTarget i ≠ some s.cfg.trapIn) : t.a = (dataEffect i s).a := by
  rcases exec_next h with ⟨lo, hi, rfl, hj⟩ | ⟨rfl, hp⟩ | ⟨hu, _⟩
  · rcases execJsrAbs_next hj with ⟨_, rfl⟩ | ⟨_, _, rfl⟩ | ⟨_, _, rfl⟩ | ⟨_, hti, _⟩ | ⟨_, hti, _⟩
    · rfl
    · rfl
    · rfl
    · exact absurd (congrArg some hti) hin
    · exact absurd (congrArg some hti) hin
  · rcases popToPc_next hp with ⟨_, e⟩ | ⟨_, e⟩ <;> rw [e] <;> rfl
  · rw [exec_next_noCallStack hu h]

end

end Sys2Proof.Machine
end

section
/-! PROOFS. Reset, steps and runs: the invariant, the status register, who writes which register. -/

namespace Sys2Proof.Machine

/-! ## Invariants along a run -/

/-- What every step keeps, every run keeps. -/
theorem run_keeps (M : Host.Core) {P : M.State → Prop} (hstep : ∀ s t, P s → M.step s = .next t → P t) :
    ∀ (k : Nat) (s t : M.State), P s → M.run k s = .next t → P t := by
  intro k
  induction k with
  | zero =>
    intro s t hs h
    rwa [← Host.Outcome.next.inj h]
  | succ k ih =>
    intro s t hs h
    rw [Host.Core.run] at h
    split at h
    · next u hu => exact ih u t (hstep s u hs hu) h
    · cases h
    · cases h

/-! ## The invariant -/

/-- A running core with no fault recorded, at Fetch or waiting, meets the invariant. -/
theorem inv_of_running {s : State} (hm : s.mem.wf = true) (hr : s.run = true) (hf : s.fault = none)
    (hp : s.phase = .fetch ∨ s.phase = .ioWait) : s.Inv where
  memory := hm
  run := .inl ⟨hr, hf, hp⟩
  fault := by rw [State.faultConsistent, hf]; trivial

/-- Raising a possible fault leaves the invariant. -/
theorem inv_raise {s : State} {f : Fatal} (hm : s.mem.wf = true) (hf : (raise f s).faultConsistent) :
    (raise f s).Inv where
  memory := hm
  run := .inr ⟨rfl, Option.some_ne_none f, rfl⟩
  fault := hf

/-- An execute phase of a running core with no fault recorded leaves the invariant. -/
theorem exec_inv {i : Instr} {s t : State} (hm : s.mem.wf = true) (hr : s.run = true) (hf : s.fault = none)
    (h : exec i s = .next t) : t.Inv := by
  have hmt : t.mem.wf = true := by
    rw [exec_next_mem h]
    exact dataEffect_mem_wf i hm
  rcases exec_next h with ⟨lo, hi, _, hj⟩ | ⟨_, hp⟩ | ⟨_, e⟩
  · rcases execJsrAbs_next hj with ⟨hc, rfl⟩ | ⟨_, _, rfl⟩ | ⟨_, _, rfl⟩ | ⟨_, _, _, _, _, rfl⟩ | ⟨_, _, _, rfl⟩
    · exact inv_raise (s := s.setPc (s.pc + 2)) (f := .stackOverflow) hm hc
    · exact inv_of_running hmt hr hf (.inl rfl)
    · exact inv_of_running hmt hr hf (.inl rfl)
    · exact inv_of_running hmt hr hf (.inl rfl)
    · exact inv_of_running hmt hr hf (.inr rfl)
  · rcases popToPc_next hp with ⟨hc, rfl⟩ | ⟨_, rfl⟩
    · exact inv_raise hm hc
    · exact inv_of_running hmt hr hf (.inl rfl)
  · rw [e] at hmt ⊢
    exact inv_of_running hmt hr hf (.inl rfl)

/-- A running core that meets the invariant has recorded no fault. -/
theorem State.Inv.fault_eq_none {s : State} (hs : s.Inv) (hr : s.run = true) : s.fault = none := by
  rcases hs.run with ⟨_, hf, _⟩ | ⟨hn, _, _⟩
  · exact hf
  · rw [hr] at hn
    cases hn

/-- Settles O4: a step halts on a byte in no row, or is the execute phase of a running core. -/
theorem stepKeepsInvariant : Obligations.StepKeepsInvariant := by
  intro s t hs h
  obtain ⟨hr, _, ⟨hl, rfl⟩ | ⟨i, _, _, he⟩⟩ := step_next h
  · exact inv_raise (s := s.setPc (s.pc + 1)) (f := .unknownOpcode (s.memRead s.pc)) hs.memory hl
  · exact exec_inv (s := s.entered) hs.memory hr (hs.fault_eq_none hr) he

/-- Settles O3: both resets leave a running core at Fetch with no fault recorded. -/
theorem resetMeetsInvariant : Obligations.ResetMeetsInvariant :=
  ⟨inv_of_running reset_memory_wf rfl rfl (.inl rfl), fun _ hm => inv_of_running hm rfl rfl (.inl rfl)⟩

/-- Settles O1: the values are the ones `State.reset` is written with; an empty memory reads zero everywhere. -/
theorem powerOnResetValues : Obligations.PowerOnResetValues :=
  ⟨rfl, rfl, rfl, rfl, rfl, rfl, rfl, fun _ => rfl, rfl, rfl, rfl, rfl⟩

/-! ## The status register -/

/-- Settles O21: the data effect on `P` of every instruction but a compare is none. -/
theorem onlyCompareWritesStatus : Obligations.OnlyCompareWritesStatus := by
  intro i s t hi h
  rw [exec_next_p h, dataEffect_p hi]

theorem exec_carry {i : Instr} {s t : State} (h : exec i s = .next t) : carryFlag t.p = carryFlag s.p := by
  rw [exec_next_p h]
  exact dataEffect_p_getLsbD i s (le_refl 1)

theorem step_carry {s t : State} (h : step s = .next t) : carryFlag t.p = carryFlag s.p := by
  obtain ⟨_, _, ⟨_, rfl⟩ | ⟨i, _, _, he⟩⟩ := step_next h
  · rfl
  · exact exec_carry (s := s.entered) he

/-- The zero-extension of a byte is the address of its number (spec/00_scope.md R8). -/
theorem ofNat_toNat_eq_zext16 (v : Byte) : BitVec.ofNat 16 v.toNat = zext16 v :=
  BitVec.ofNat_toNat 16 v

/-- A branch whose condition fails completes past its operand (spec/44_branch_jump.md R170). -/
theorem branchIf_false {off8 : Byte} {s : State} (h : s.roomFor 1) : branchIf false off8 s = .next (s.after 1) :=
  Flow.andThen_of_ok (advancePc_ok h) _

/-- A branch whose condition holds completes at its base plus the zero-extended offset (spec/44_branch_jump.md R170). -/
theorem branchIf_true {off8 : Byte} {s : State} (h : s.roomFor 1)
    (ht : s.cfg.topPolicy = .fault → (branchBaseAddr s.cfg.branchBase s.pc (s.pc + 1)).toNat + off8.toNat ≤ 0xFFFF) :
    branchIf true off8 s =
      .next { s.after 1 with pc := branchBaseAddr s.cfg.branchBase s.pc (s.pc + 1) + zext16 off8 } := by
  have target := setPcTo_ok (s := s.setPc (s.pc + 1)) ht
  rw [ofNat_toNat_eq_zext16] at target
  exact (Flow.andThen_of_ok (advancePc_ok h) _).trans (Flow.andThen_of_ok target _)

/-- Settles O22: no data effect writes bit 1 of `P`, and a branch on Carry goes where its condition says. -/
theorem carryIsNeverComputed : Obligations.CarryIsNeverComputed := by
  refine ⟨fun i s t => exec_carry, fun s t => step_carry, rfl,
    run_keeps Sys2Proof.core fun s t hs h => (step_carry h).trans hs, ?_⟩
  intro s off8 hroom
  have bcs : exec (.bcs off8) s = branchIf (carryFlag s.p) off8 s := rfl
  have bcc : exec (.bcc off8) s = branchIf (!carryFlag s.p) off8 s := rfl
  rw [bcs, bcc]
  refine ⟨fun hc => ?_, fun hc => ?_, fun ht => ⟨fun hc => ?_, fun hc => ?_⟩⟩ <;> rw [hc]
  · exact branchIf_false hroom
  · exact branchIf_false hroom
  · exact branchIf_true hroom ht
  · exact branchIf_true hroom ht

/-- Settles O52: registers as the data effect leaves them, and the call stack as `exec_next` says. -/
theorem registersChangeOnlyByTheirWriters : Obligations.RegistersChangeOnlyByTheirWriters := by
  intro i s t h
  refine ⟨fun hi hin => ?_, fun hi => ?_, fun hi => ?_, fun hi => ?_, fun hi => ?_, fun hi => ?_, exec_next_cfg h⟩
  · rw [exec_next_a h hin, dataEffect_a hi]
  · rw [exec_next_x h, dataEffect_x hi]
  · rw [exec_next_y h, dataEffect_y hi]
  · rw [exec_next_sp h, dataEffect_sp hi]
  · rcases exec_next h with ⟨_, _, rfl, _⟩ | ⟨_, hp⟩ | ⟨_, e⟩
    · cases hi
    · rcases popToPc_next hp with ⟨_, rfl⟩ | ⟨_, rfl⟩
      · rfl
      · rfl
    · rw [e]
  · rcases exec_next h with ⟨_, _, rfl, _⟩ | ⟨rfl, _⟩ | ⟨_, e⟩
    · cases hi
    · cases hi
    · rw [e]
      exact ⟨rfl, rfl, rfl⟩

end Sys2Proof.Machine
end

section
/-! PROOFS. The call stack as a list. -/

namespace Sys2Proof.Machine

/-- What an execute phase or a step can do to the call stack `cs`, `csp`, with `ret` the address of the next instruction: `t` is
the state after it. -/
inductive CallStackMove (ret : Addr) (cs : CallStack) (csp : Byte) (t : State) : Prop
  /-- Neither storage nor pointer changes. -/
  | keep (hcs : t.cs = cs) (hcsp : t.csp = csp)
  /-- A trapped call has pushed and popped: one stale slot is left behind. -/
  | trapped (h0 : csp ≠ 0) (hcs : t.cs = setSlot cs csp ret) (hcsp : t.csp = csp)
  /-- A call has pushed. -/
  | pushed (h0 : csp ≠ 0) (hcs : t.cs = setSlot cs csp ret) (hcsp : t.csp = csp - 1)
  /-- A return has popped. -/
  | popped (h255 : csp ≠ 255) (hcs : t.cs = cs) (hcsp : t.csp = csp + 1) (hpc : t.pc = slotAt cs (csp + 1))

theorem exec_callStackMove {i : Instr} {s t : State} (h : exec i s = .next t) :
    CallStackMove (s.pc + 2) s.cs s.csp t := by
  rcases exec_next h with ⟨lo, hi, _, hj⟩ | ⟨_, hp⟩ | ⟨_, e⟩
  · rcases execJsrAbs_next hj with ⟨_, rfl⟩ | ⟨hc, _, rfl⟩ | ⟨hc, _, rfl⟩ | ⟨hc, _, _, _, _, rfl⟩ | ⟨_, _, _, rfl⟩
    · exact .keep rfl rfl
    · exact .pushed hc rfl rfl
    · exact .trapped hc rfl rfl
    · exact .trapped hc rfl rfl
    · exact .keep rfl rfl
  · rcases popToPc_next hp with ⟨_, rfl⟩ | ⟨hc, rfl⟩
    · exact .keep rfl rfl
    · exact .popped hc rfl rfl rfl
  · rw [e]
    exact .keep rfl rfl

theorem step_callStackMove {s t : State} (h : step s = .next t) : CallStackMove (s.pc + 3) s.cs s.csp t := by
  obtain ⟨_, _, ⟨_, rfl⟩ | ⟨i, _, _, he⟩⟩ := step_next h
  · exact .keep rfl rfl
  · have move : CallStackMove (s.pc + 1 + 2) s.cs s.csp t := exec_callStackMove (s := s.entered) he
    rwa [show s.pc + 1 + 2 = s.pc + 3 by bv_omega] at move

/-- Writing the slot at the pointer leaves every slot above it. -/
theorem slotAt_setSlot_above (cs : CallStack) {csp k : Byte} (v : Addr) (h : csp < k) :
    slotAt (setSlot cs csp v) k = slotAt cs k :=
  slotAt_setSlot_other cs v (by bv_omega)

/-! ## The list of outstanding return addresses -/

theorem outstanding_length (s : State) : s.outstanding.length = 255 - s.csp.toNat := by
  simp [State.outstanding]

/-- The list depends on the pointer and the slots above it alone. -/
theorem outstanding_congr {s t : State} (hcsp : t.csp = s.csp) (hcs : ∀ k, s.csp < k → slotAt t.cs k = slotAt s.cs k) :
    t.outstanding = s.outstanding := by
  rw [State.outstanding, State.outstanding, hcsp]
  refine List.map_congr_left fun k hk => hcs _ ?_
  have := List.mem_range.mp hk
  bv_omega

/-- The list's head is the slot above the pointer, its tail the list of any state whose pointer is one higher and whose live slots
are the same. -/
theorem outstanding_eq_cons {s t : State} (h : s.csp ≠ 255) (hcsp : t.csp = s.csp + 1)
    (hcs : ∀ k, t.csp < k → slotAt t.cs k = slotAt s.cs k) : s.outstanding = slotAt s.cs t.csp :: t.outstanding := by
  have tail : t.outstanding = (s.setCallStack s.cs t.csp).outstanding := outstanding_congr rfl hcs
  have size : 255 - s.csp.toNat = (255 - (s.csp + 1).toNat) + 1 := by bv_omega
  rw [tail, hcsp, State.outstanding, State.outstanding, size, List.range_succ_eq_map, List.map_cons, List.map_map]
  refine congrArg₂ _ (by simp) (List.map_congr_left fun k _ => congrArg (slotAt s.cs) ?_)
  show s.csp + 1 + BitVec.ofNat 8 (k + 1) = s.csp + 1 + 1 + BitVec.ofNat 8 k
  bv_omega

/-- Settles O33: a call's push puts its return address in front, a return's pop takes the first one away, and the slot a trapped
call writes is not on the list. -/
theorem callStackIsAList : Obligations.CallStackIsAList := by
  refine ⟨fun s t h => ?_, outstanding_length⟩
  cases step_callStackMove h with
  | keep hcs hcsp => exact .inl (outstanding_congr hcsp fun _ _ => by rw [hcs])
  | trapped _ hcs hcsp => exact .inl (outstanding_congr hcsp fun k hk => by rw [hcs, slotAt_setSlot_above _ _ hk])
  | pushed h0 hcs hcsp =>
    right; left
    have cons := outstanding_eq_cons (s := t) (t := s) (by bv_omega) (by bv_omega)
      fun k hk => by rw [hcs, slotAt_setSlot_above _ _ hk]
    rwa [hcs, slotAt_setSlot_same] at cons
  | popped h255 hcs hcsp hpc =>
    right; right
    rw [hpc, ← hcsp]
    exact outstanding_eq_cons h255 hcsp fun _ _ => by rw [hcs]

/-- Settles O34: the one slot a step can write is the one at a pointer that is not 0. -/
theorem liveSlotsAreNeverOverwritten : Obligations.LiveSlotsAreNeverOverwritten := by
  intro s t h
  cases step_callStackMove h with
  | keep hcs | popped _ hcs => rw [hcs]; exact ⟨rfl, fun _ _ => rfl⟩
  | trapped h0 hcs | pushed h0 hcs =>
    rw [hcs]
    exact ⟨slotAt_setSlot_other _ _ h0.symm, fun _ => slotAt_setSlot_above _ _⟩

end Sys2Proof.Machine
end

section
/-! PROOFS. What an instruction does not see: states that differ in `SP`, `P` or call-stack slots alone. -/

namespace Sys2Proof.Machine

/-! ## Related flows and outcomes -/

/-- Two operations end alike, in related states. -/
inductive FlowRel (R : State → State → Prop) {α : Type} : Flow α → Flow α → Prop
  | ok (v : α) {s t : State} (h : R s t) : FlowRel R (.ok v s) (.ok v t)
  | halt {s t : State} (h : R s t) : FlowRel R (.halt s) (.halt t)
  | stop (f : Fault) : FlowRel R (.stop f) (.stop f)

/-- Two steps have the same outcome, with related next states. -/
inductive OutcomeRel (R : State → State → Prop) : Result → Result → Prop
  | next {s t : State} (h : R s t) : OutcomeRel R (.next s) (.next t)
  | fault (f : Fault) : OutcomeRel R (.fault f) (.fault f)
  | refused (r : Refusal) : OutcomeRel R (.refused r) (.refused r)

theorem FlowRel.andThen {R : State → State → Prop} {α : Type} {m n : Flow α} {k l : α → State → Result}
    (h : FlowRel R m n) (hk : ∀ v s t, R s t → OutcomeRel R (k v s) (l v t)) :
    OutcomeRel R (m.andThen k) (n.andThen l) := by
  cases h with
  | ok v h => exact hk v _ _ h
  | halt h => exact .next h
  | stop f => exact .fault f

/-- Related by a function is mapped by it. -/
theorem OutcomeRel.eq_mapNext {f : State → State} {r q : Result} (h : OutcomeRel (fun s t => t = f s) r q) :
    q = mapNext f r := by
  cases h with
  | next h => rw [h, mapNext]
  | fault | refused => rfl

theorem OutcomeRel.sameOutcomeButStaleSlots {r q : Result} (h : OutcomeRel sameButStaleSlots r q) :
    sameOutcomeButStaleSlots r q := by
  cases h with
  | next h => exact h
  | fault | refused => rfl

/-! ## The operations on related states -/

/-- A change of the state that neither reads nor writes `SP`, `P`, the call-stack slots and `CSP`. -/
def LeavesHidden (u : State → State) : Prop :=
  ∀ (s : State) (sp p : Byte) (cs : CallStack) (csp : Byte),
    u { s with sp := sp, p := p, cs := cs, csp := csp } = { u s with sp := sp, p := p, cs := cs, csp := csp }

section

variable {u : State → State} (hu : LeavesHidden u) (s : State)
include hu

theorem LeavesHidden.sp : (u s).sp = s.sp := by
  have h := congrArg State.sp (hu s s.sp s.p s.cs s.csp)
  exact h

theorem LeavesHidden.p : (u s).p = s.p := by
  have h := congrArg State.p (hu s s.sp s.p s.cs s.csp)
  exact h

theorem LeavesHidden.cs : (u s).cs = s.cs := by
  have h := congrArg State.cs (hu s s.sp s.p s.cs s.csp)
  exact h

theorem LeavesHidden.csp : (u s).csp = s.csp := by
  have h := congrArg State.csp (hu s s.sp s.p s.cs s.csp)
  exact h

end

/-- A relation between states that differ in `SP`, `P` and call-stack slots alone and that every operation but a copy of `SP`
keeps: the flags agree, and pushes and pops answer the same. -/
structure Hiding (R : State → State → Prop) : Prop where
  same : ∀ {s t}, R s t → ∃ sp p cs, t = { s with sp := sp, p := p, cs := cs }
  update : ∀ {u s t}, LeavesHidden u → R s t → R (u s) (u t)
  zero : ∀ {s t}, R s t → zeroFlag t.p = zeroFlag s.p
  carry : ∀ {s t}, R s t → carryFlag t.p = carryFlag s.p
  setZero : ∀ {s t} (z : Bool), R s t → R (s.setP (setZero s.p z)) (t.setP (setZero t.p z))
  push : ∀ {s t} (ret : Addr), R s t → FlowRel R (push ret s) (push ret t)
  pop : ∀ {s t}, R s t → FlowRel R (pop s) (pop t)

/-- The relation keeps `SP` as well. -/
structure SpShared (R : State → State → Prop) : Prop where
  same : ∀ {s t}, R s t → t.sp = s.sp
  setSp : ∀ {s t} (v : Byte), R s t → R (s.setSp v) (t.setSp v)

section

variable {R : State → State → Prop} (hR : Hiding R) {s t : State}
include hR

/-- What is read off the state without `SP`, `P` and the slots reads the same on both sides. -/
theorem Hiding.agree {α : Type} (f : State → α) (h : R s t)
    (hf : ∀ (s : State) (sp p : Byte) (cs : CallStack), f { s with sp := sp, p := p, cs := cs } = f s := by
      intros; rfl) : f t = f s := by
  obtain ⟨sp, p, cs, rfl⟩ := hR.same h
  exact hf s sp p cs

/-- `Hiding.update`, for a change that is seen to leave the hidden parts. -/
theorem Hiding.apply (u : State → State) (h : R s t) (hu : LeavesHidden u := by intro _ _ _ _ _; rfl) : R (u s) (u t) :=
  hR.update hu h

theorem complete_rel (h : R s t) : OutcomeRel R (complete s) (complete t) :=
  .next (hR.apply (·.setPhase .fetch) h)

theorem complete_update_rel (u : State → State) (h : R s t) (hu : LeavesHidden u := by intro _ _ _ _ _; rfl) :
    OutcomeRel R (complete (u s)) (complete (u t)) :=
  complete_rel hR (hR.update hu h)

theorem setPc_rel (v : Addr) (h : R s t) : R (s.setPc v) (t.setPc v) :=
  hR.apply (·.setPc v) h

theorem setPcTo_rel (base : Addr) (n : Nat) (h : R s t) : FlowRel R (setPcTo base n s) (setPcTo base n t) := by
  rw [setPcTo, setPcTo, hR.agree State.cfg h]
  split
  · exact .stop _
  · exact .ok () (setPc_rel hR _ h)

theorem advancePc_rel (n : Nat) (h : R s t) : FlowRel R (advancePc n s) (advancePc n t) := by
  rw [advancePc, advancePc, hR.agree State.pc h]
  exact setPcTo_rel hR _ n h

theorem resolveOperands_rel (m : Mode) (lo hi : Byte) (h : R s t) :
    FlowRel R (resolveOperands m lo hi s) (resolveOperands m lo hi t) := by
  have adv := advancePc_rel hR (operandCount m) h
  rw [resolveOperands, resolveOperands, hR.agree State.pc h, hR.agree State.x h, hR.agree State.y h]
  generalize advancePc (operandCount m) s = a at adv
  generalize advancePc (operandCount m) t = b at adv
  cases adv with
  | ok _ h' => exact .ok _ h'
  | halt h' => exact .halt h'
  | stop f => exact .stop f

theorem withImmediate_rel {imm8 : Byte} {k : Byte → State → State} (hk : ∀ {s t}, R s t → R (k imm8 s) (k imm8 t))
    (h : R s t) : OutcomeRel R (withImmediate imm8 s k) (withImmediate imm8 t k) :=
  (resolveOperands_rel hR .immediate imm8 0 h).andThen fun _ _ _ h₁ =>
    (advancePc_rel hR 1 h₁).andThen fun _ _ _ h₂ => complete_rel hR (hk h₂)

theorem loadFrom_rel (m : Mode) (lo hi : Byte) {k : State → Byte → State} (hk : ∀ v, LeavesHidden (k · v))
    (h : R s t) : OutcomeRel R (loadFrom m lo hi s k) (loadFrom m lo hi t k) :=
  (resolveOperands_rel hR m lo hi h).andThen fun ea s₁ t₁ h₁ => by
    rw [hR.agree (·.memRead ea) h₁]
    exact complete_update_rel hR _ h₁ (hk _)

theorem storeTo_rel (m : Mode) (lo hi v : Byte) (h : R s t) :
    OutcomeRel R (storeTo m lo hi v s) (storeTo m lo hi v t) :=
  (resolveOperands_rel hR m lo hi h).andThen fun ea _ _ h₁ => complete_update_rel hR (·.memWrite ea v) h₁

theorem execIncZp_rel (zp8 : Byte) (h : R s t) : OutcomeRel R (execIncZp zp8 s) (execIncZp zp8 t) :=
  (resolveOperands_rel hR .zeroPage zp8 0 h).andThen fun ea _ _ h₁ =>
    complete_update_rel hR (fun s => s.memWrite ea (aluInc (s.memRead ea))) h₁

theorem branchIf_rel (cond : Bool) (off8 : Byte) (h : R s t) :
    OutcomeRel R (branchIf cond off8 s) (branchIf cond off8 t) :=
  (advancePc_rel hR 1 h).andThen fun _ s₁ t₁ h₁ => by
    rw [hR.agree State.pc h, hR.agree State.pc h₁, hR.agree State.cfg h₁]
    cases cond with
    | true => exact (setPcTo_rel hR _ _ h₁).andThen fun _ _ _ h₂ => complete_rel hR h₂
    | false => exact complete_rel hR h₁

theorem execJmpAbs_rel (lo hi : Byte) (h : R s t) : OutcomeRel R (execJmpAbs lo hi s) (execJmpAbs lo hi t) :=
  (resolveOperands_rel hR .absolute lo hi h).andThen fun _ _ _ h₁ => complete_rel hR (setPc_rel hR _ h₁)

theorem popToPc_rel (h : R s t) : OutcomeRel R (popToPc s) (popToPc t) :=
  (hR.pop h).andThen fun ret _ _ h₁ => complete_rel hR (setPc_rel hR ret h₁)

/-- The wait gives up the called state and answers the one the call's execute phase began in. -/
theorem trappedCall_rel (target : Addr) {s' t' : State} (hentry : R s t) (h : R s' t') :
    OutcomeRel R (trappedCall target s s') (trappedCall target t t') := by
  rw [trappedCall, trappedCall, hR.agree State.cfg h, hostIn, hostIn, hR.agree State.input h]
  split
  · exact popToPc_rel hR (hR.apply hostOut h)
  · cases s'.input with
    | nil => exact .next (hR.apply waitForInput hentry)
    | cons b rest => exact popToPc_rel hR (hR.apply (fun s => (s.setInput rest).setA b) h)

theorem execJsrAbs_rel (lo hi : Byte) (h : R s t) : OutcomeRel R (execJsrAbs lo hi s) (execJsrAbs lo hi t) :=
  (resolveOperands_rel hR .absolute lo hi h).andThen fun target s₁ t₁ h₁ => by
    rw [hR.agree State.pc h₁]
    refine (hR.push s₁.pc h₁).andThen fun _ s₂ t₂ h₂ => ?_
    rw [hR.agree State.cfg h₂]
    split
    · exact trappedCall_rel hR target h (setPc_rel hR target h₂)
    · exact complete_rel hR (setPc_rel hR target h₂)

/-- An execute phase keeps the relation; `TSX` and `TXS` where it keeps `SP`. -/
theorem exec_rel {i : Instr} (hsp : i = .tsx ∨ i = .txs → SpShared R) (h : R s t) :
    OutcomeRel R (exec i s) (exec i t) := by
  cases i with
  | ldaImm imm8 => exact withImmediate_rel hR (k := fun v t => t.setA v) (hR.apply (·.setA imm8)) h
  | ldxImm imm8 => exact withImmediate_rel hR (k := fun v t => t.setX v) (hR.apply (·.setX imm8)) h
  | ldyImm imm8 => exact withImmediate_rel hR (k := fun v t => t.setY v) (hR.apply (·.setY imm8)) h
  | adcImm imm8 =>
    exact withImmediate_rel hR (k := fun v t => t.setA (aluAdd t.a v))
      (hR.apply (fun t => t.setA (aluAdd t.a imm8))) h
  | cmpImm imm8 =>
    refine withImmediate_rel hR (k := fun v t => t.setP (setZero t.p (aluEq t.a v))) (fun {s₁ t₁} h₁ => ?_) h
    simp only [hR.agree State.a h₁]
    exact hR.setZero _ h₁
  | ldaZp | ldaAbs | ldxZp | ldxAbs | ldyZp | ldyAbs => exact loadFrom_rel hR _ _ _ (fun _ _ _ _ _ _ => rfl) h
  | staZp | staAbs | stxZp | stxAbs | styZp | styAbs | stzZp =>
    obtain ⟨_, _, _, rfl⟩ := hR.same h
    exact storeTo_rel hR _ _ _ _ h
  | incZp zp8 => exact execIncZp_rel hR zp8 h
  | beq off8 | bne off8 =>
    simp only [exec, execBeq, execBne, hR.zero h]
    exact branchIf_rel hR _ off8 h
  | bcs off8 | bcc off8 =>
    simp only [exec, execBcs, execBcc, hR.carry h]
    exact branchIf_rel hR _ off8 h
  | jmpAbs lo hi => exact execJmpAbs_rel hR lo hi h
  | jsrAbs lo hi => exact execJsrAbs_rel hR lo hi h
  | rts => exact popToPc_rel hR h
  | inx => exact complete_update_rel hR (fun s => s.setX (aluInc s.x)) h
  | iny => exact complete_update_rel hR (fun s => s.setY (aluInc s.y)) h
  | tax => exact complete_update_rel hR (fun s => s.setX s.a) h
  | tay => exact complete_update_rel hR (fun s => s.setY s.a) h
  | txa => exact complete_update_rel hR (fun s => s.setA s.x) h
  | tya => exact complete_update_rel hR (fun s => s.setA s.y) h
  | tsx =>
    simp only [exec, execTsx, (hsp (.inl rfl)).same h]
    exact complete_update_rel hR (·.setX s.sp) h
  | txs =>
    simp only [exec, execTxs, hR.agree State.x h]
    exact complete_rel hR ((hsp (.inr rfl)).setSp s.x h)

theorem fetch_rel (h : R s t) : FlowRel R (fetch s) (fetch t) := by
  have adv := advancePc_rel hR 1 h
  rw [fetch, fetch, hR.agree (fun s => s.memRead s.pc) h]
  generalize advancePc 1 s = a at adv
  generalize advancePc 1 t = b at adv
  cases adv with
  | ok _ h' => exact .ok _ (hR.apply (·.setPhase .decode) h')
  | halt h' => exact .halt h'
  | stop f => exact .stop f

theorem decodePhase_rel (opcode : Byte) (h : R s t) : FlowRel R (decodePhase opcode s) (decodePhase opcode t) := by
  have decoded := hR.agree (fun s => decodeWith s.cfg.opcodes [opcode, s.memRead s.pc, s.memRead (s.pc + 1)]) h
  rw [decodePhase, decodePhase, decoded]
  split
  · exact .ok _ (hR.apply (·.setPhase .execute) h)
  · exact .halt (hR.apply (raise (.unknownOpcode opcode)) h)

/-- A step keeps a relation that keeps `SP`. -/
theorem step_rel (hsp : SpShared R) (h : R s t) : OutcomeRel R (step s) (step t) := by
  rw [step, step, hR.agree State.run h, hR.agree State.fault h]
  split
  · exact (fetch_rel hR h).andThen fun opcode _ _ h₁ =>
      (decodePhase_rel hR opcode h₁).andThen fun _ _ _ h₂ => exec_rel hR (fun _ => hsp) h₂
  · exact .fault _

end

/-! ## A change of `SP` or of the unused bits of `P` -/

/-- Change what `SP` and `P` hold. -/
def retouch (f g : Byte → Byte) (s : State) : State := { s with sp := f s.sp, p := g s.p }

/-- A change of `SP` is seen by no operation but a copy of `SP`, and a change of `P` by none where it keeps both flags and goes
through a write of Zero. -/
theorem hiding_retouch (f : Byte → Byte) {g : Byte → Byte} (hz : ∀ p, zeroFlag (g p) = zeroFlag p)
    (hc : ∀ p, carryFlag (g p) = carryFlag p) (hs : ∀ p z, setZero (g p) z = g (setZero p z)) :
    Hiding fun s t => t = retouch f g s where
  same h := ⟨_, _, _, h⟩
  update := by
    rintro u s _ hu rfl
    have moved : u (retouch f g s) = { u s with sp := f s.sp, p := g s.p, cs := s.cs, csp := s.csp } := hu _ _ _ _ _
    rw [moved, retouch, hu.sp, hu.p, ← hu.cs s, ← hu.csp s]
  zero h := h ▸ hz _
  carry h := h ▸ hc _
  setZero := by
    rintro s _ z rfl
    exact congrArg (State.setP _) (hs s.p z)
  push := by
    rintro s _ ret rfl
    rcases push_cases ret s with ⟨h, e⟩ | ⟨h, e⟩ <;> rw [e]
    · rw [push, if_pos (show (retouch f g s).csp = 0 from h)]
      exact .halt rfl
    · rw [push, if_neg (show (retouch f g s).csp ≠ 0 from h)]
      exact .ok () rfl
  pop := by
    rintro s _ rfl
    rcases pop_cases s with ⟨h, e⟩ | ⟨h, e⟩ <;> rw [e]
    · rw [pop, if_pos (show (retouch f g s).csp = 255 from h)]
      exact .halt rfl
    · rw [pop, if_neg (show (retouch f g s).csp ≠ 255 from h)]
      exact .ok _ rfl

/-- Settles O36: `SP` is what the relation hides, and only `TSX` and `TXS` see it. -/
theorem stackPointerIsDataOnly : Obligations.StackPointerIsDataOnly := by
  intro i s v htsx htxs
  have hR : Hiding fun s t => t = retouch (fun _ => v) id s :=
    hiding_retouch _ (fun _ => rfl) (fun _ => rfl) (fun _ _ => rfl)
  exact (exec_rel hR (fun h => (h.elim htsx htxs).elim) rfl).eq_mapNext

/-- Settles O23: a flip of bits 7:2 keeps both flags and goes through a write of Zero, and a write of Zero keeps those bits. -/
theorem unusedStatusBitsAreInert : Obligations.UnusedStatusBitsAreInert := by
  refine ⟨fun i s m hm => ?_, fun i s t h k hk => ?_⟩
  · have hR : Hiding fun s t => t = retouch id (· ^^^ m) s :=
      hiding_retouch _ (fun p => getLsbD_xor_of_and_three hm p (by decide))
        (fun p => getLsbD_xor_of_and_three hm p (by decide)) (setZero_xor_of_and_three hm)
    have hsp : SpShared fun s t => t = retouch id (· ^^^ m) s :=
      ⟨fun h => h ▸ rfl, fun _ h => h ▸ rfl⟩
    exact (exec_rel hR (fun _ => hsp) rfl).eq_mapNext
  · rw [exec_next_p h]
    exact dataEffect_p_getLsbD i s (by omega)

/-! ## Stale slots -/

theorem spShared_sameButStaleSlots : SpShared sameButStaleSlots where
  same h := by rw [h.1]
  setSp v h := by
    obtain ⟨e, hk⟩ := h
    exact ⟨by rw [e]; rfl, hk⟩

theorem hiding_sameButStaleSlots : Hiding sameButStaleSlots where
  same h := ⟨_, _, _, h.1⟩
  update := by
    rintro u s t hu ⟨e, hk⟩
    have moved : u t = { u s with sp := s.sp, p := s.p, cs := t.cs, csp := s.csp } := e ▸ hu _ _ _ _ _
    refine ⟨?_, fun k hlt => ?_⟩
    · rw [hu.cs, moved, ← hu.sp s, ← hu.p s, ← hu.csp s]
    · rw [hu.csp] at hlt
      rw [hu.cs, hu.cs, hk k hlt]
  zero h := by rw [h.1]
  carry h := by rw [h.1]
  setZero z h := by
    obtain ⟨e, hk⟩ := h
    exact ⟨by rw [e]; rfl, hk⟩
  push := by
    rintro s t ret ⟨e, hk⟩
    have hcsp : t.csp = s.csp := by rw [e]
    rcases push_cases ret s with ⟨h, es⟩ | ⟨h, es⟩ <;> rw [es]
    · rw [push, if_pos (hcsp.trans h)]
      exact .halt ⟨by rw [e]; rfl, hk⟩
    · rw [push, if_neg (hcsp ▸ h)]
      refine .ok () ⟨by rw [e]; rfl, fun k hlt => ?_⟩
      show slotAt (setSlot t.cs t.csp ret) k = slotAt (setSlot s.cs s.csp ret) k
      have hlt : s.csp - 1 < k := hlt
      rw [hcsp]
      by_cases hkc : k = s.csp
      · rw [hkc, slotAt_setSlot_same, slotAt_setSlot_same]
      · rw [slotAt_setSlot_other _ _ hkc, slotAt_setSlot_other _ _ hkc, hk k (by bv_omega)]
  pop := by
    rintro s t ⟨e, hk⟩
    have hcsp : t.csp = s.csp := by rw [e]
    rcases pop_cases s with ⟨h, es⟩ | ⟨h, es⟩ <;> rw [es]
    · rw [pop, if_pos (hcsp.trans h)]
      exact .halt ⟨by rw [e]; rfl, hk⟩
    · have top : slotAt t.cs (t.csp + 1) = slotAt s.cs (s.csp + 1) := by
        rw [hcsp]
        exact hk _ (by bv_omega)
      rw [pop, if_neg (hcsp ▸ h), top]
      refine .ok _ ⟨by rw [e]; rfl, fun k hlt => hk k ?_⟩
      have : s.csp + 1 < k := hlt
      bv_omega

/-- Settles O35: pushes write and pops read above the stale slots alone. -/
theorem staleSlotsAreUnobservable : Obligations.StaleSlotsAreUnobservable := by
  intro s t h
  exact (step_rel hiding_sameButStaleSlots spShared_sameButStaleSlots h).sameOutcomeButStaleSlots

end Sys2Proof.Machine
end

section
/-! PROOFS. Memory: a write, what an instruction stores, and what the next fetch reads. -/

namespace Sys2Proof.Machine

/-! ## Reads and writes -/

/-- A read depends on memory and address alone (spec/20_memory.md R51). -/
theorem memRead_congr {s t : State} (h : t.mem = s.mem) (ea : Addr) : t.memRead ea = s.memRead ea :=
  congrArg (memoryRead · ea.toNat) h

/-- Settles O5: the laws of a read after a write; `memWrite` updates the field `mem` alone, and a read looks at nothing else. -/
theorem memoryWriteReadsBack : Obligations.MemoryWriteReadsBack :=
  fun s ea v => ⟨memRead_memWrite_same s ea v, fun _ => memRead_memWrite_other s v, rfl, fun _ h => memRead_congr h ea⟩

/-- A memory in canonical form lists no address past the top. -/
theorem memoryRead_beyond {m : Memory} {lo a : Nat} (h : memoryWfFrom lo m = true) (ha : memSize ≤ a) :
    memoryRead m a = unlistedByte := by
  induction m generalizing lo with
  | nil => rfl
  | cons c m ih =>
    obtain ⟨b, w⟩ := c
    simp only [memoryWfFrom, Bool.and_eq_true, decide_eq_true_eq] at h
    obtain ⟨⟨⟨_, hb⟩, _⟩, htail⟩ := h
    have : a ≠ b := by omega
    simpa [memoryRead, this] using ih htail

/-- Settles O6: inside the memory the reads agree by hypothesis, past its top both read what no entry lists. -/
theorem canonicalMemoriesReadingAlikeAreEqual : Obligations.CanonicalMemoriesReadingAlikeAreEqual := by
  intro s t hs ht h
  refine memory_ext hs ht fun a => ?_
  by_cases ha : a < memSize
  · have read := h (BitVec.ofNat 16 a)
    rwa [State.memRead, State.memRead, BitVec.toNat_ofNat, Nat.mod_eq_of_lt (show a < 2 ^ 16 from ha)] at read
  · rw [memoryRead_beyond hs (not_lt.mp ha), memoryRead_beyond ht (not_lt.mp ha)]

/-! ## What an instruction stores -/

section

variable {i : Instr} {s t : State} {ea : Addr}

/-- The data effect of a storing instruction is its one write. -/
theorem dataEffect_of_store (hea : storeAddress i s = some ea) : dataEffect i s = s.memWrite ea (storedByte i s) := by
  cases i with
  | staZp | staAbs | stxZp | stxAbs | styZp | styAbs | stzZp | incZp => cases hea; rfl
  | _ => cases hea

theorem dataEffect_mem_of_noStore (hea : storeAddress i s = none) : (dataEffect i s).mem = s.mem := by
  cases i with
  | staZp | staAbs | stxZp | stxAbs | styZp | styAbs | stzZp | incZp => cases hea
  | _ => rfl

theorem usesCallStack_of_store (hea : storeAddress i s = some ea) : usesCallStack i = false := by
  cases i with
  | jsrAbs | rts => cases hea
  | _ => rfl

/-- A storing instruction writes its byte, moves `PC` and returns to Fetch. -/
theorem exec_next_store (hea : storeAddress i s = some ea) (h : exec i s = .next t) :
    t = { s.memWrite ea (storedByte i s) with pc := t.pc, phase := .fetch } := by
  rw [← dataEffect_of_store hea]
  exact exec_next_noCallStack (usesCallStack_of_store hea) h

/-- What every address reads as after a storing instruction. -/
theorem exec_next_memRead_store (hea : storeAddress i s = some ea) (h : exec i s = .next t) (b : Addr) :
    t.memRead b = byteAfterStore i s ea b := by
  have read : t.memRead b = (s.memWrite ea (storedByte i s)).memRead b := memRead_congr (by rw [exec_next_store hea h]) b
  rw [read, byteAfterStore]
  split
  · next hb => rw [hb, memRead_memWrite_same]
  · next hb => exact memRead_memWrite_other s _ hb

end

/-- Settles O16: the stored byte stands at the stored address alone. -/
theorem storingFormsWriteOneByte : Obligations.StoringFormsWriteOneByte := by
  intro i s t ea hea h
  have read := exec_next_memRead_store hea h
  refine ⟨fun b hb => (read b).trans (if_neg hb), (read ea).trans ((if_pos rfl).trans ?_)⟩
  cases i with
  | incZp => cases hea; rfl
  | _ => rfl

/-- Settles O17: the data effect of a form without a store keeps memory. -/
theorem otherFormsKeepMemory : Obligations.OtherFormsKeepMemory := by
  intro i s t hea h b
  exact memRead_congr ((exec_next_mem h).trans (dataEffect_mem_of_noStore hea)) b

/-! ## The step of a running core, by the byte at `PC` -/

/-- A byte in no row decodes to nothing, whatever follows it (spec/30_encoding.md R76). -/
theorem decodeWith_of_lookup_none {t : OpcodeTable} {b : Byte} (h : lookupOpcode t b = none) (rest : List Byte) :
    decodeWith t (b :: rest) = .error (.unknownOpcode b) := by
  simp [decodeWith, h]

section

variable {s : State}

theorem step_of_noRoom (hr : s.run = true) (hroom : ¬ s.roomFor 1) : step s = .fault .pastTop := by
  rcases step_cases s with ⟨hn, _⟩ | ⟨_, _, _, e⟩ | ⟨_, h, _⟩ | ⟨_, h, _⟩
  · rw [hr] at hn
    cases hn
  · exact e
  · exact absurd h hroom
  · exact absurd h hroom

/-- A step with room for the fetch increment runs what the bytes at `PC` decode to. -/
theorem step_of_decode {i : Instr} {rest : List Byte} (hr : s.run = true) (hroom : s.roomFor 1)
    (hd : decodeWith s.cfg.opcodes s.bytesAtPc = .ok (i, rest)) : step s = exec i s.entered := by
  rcases step_cases s with ⟨hn, _⟩ | ⟨_, hn, _⟩ | ⟨_, _, hl, _⟩ | ⟨_, _, j, rest', hd', e⟩
  · rw [hr] at hn
    cases hn
  · exact absurd hroom hn
  · rw [State.bytesAtPc, decodeWith_of_lookup_none hl] at hd
    cases hd
  · rw [hd] at hd'
    cases hd'
    exact e

/-- A step with room for the fetch increment halts on a byte in no row, `PC` one past it. -/
theorem step_of_lookup_none (hr : s.run = true) (hroom : s.roomFor 1)
    (hl : lookupOpcode s.cfg.opcodes (s.memRead s.pc) = none) :
    step s = .next { s with
      pc := s.pc + 1, run := false, fault := some (.unknownOpcode (s.memRead s.pc)), phase := .halted } := by
  rcases step_cases s with ⟨hn, _⟩ | ⟨_, hn, _⟩ | ⟨_, _, _, e⟩ | ⟨_, _, i, rest, hd, _⟩
  · rw [hr] at hn
    cases hn
  · exact absurd hroom hn
  · exact e
  · rw [State.bytesAtPc, decodeWith_of_lookup_none hl] at hd
    cases hd

end

/-- Settles O18: the next step decodes what its state's memory reads as, and that is what the store left. -/
theorem storeIsSeenByNextFetch : Obligations.StoreIsSeenByNextFetch := by
  intro i s t ea hea h hr hroom
  have run : t.run = true := by
    rw [exec_next_store hea h]
    exact hr
  simp only [← exec_next_memRead_store hea h, ← exec_next_cfg h]
  exact ⟨fun j rest => step_of_decode run hroom, step_of_lookup_none run hroom⟩

end Sys2Proof.Machine
end

section
/-! PROOFS. Where an execute phase or a step stops past the top of memory. -/

namespace Sys2Proof.Machine

/-! ## Room -/

theorem not_roomFor_iff {s : State} {n : Nat} : ¬ s.roomFor n ↔ s.cfg.topPolicy = .fault ∧ 0xFFFF < s.pc.toNat + n := by
  simp [State.roomFor]

theorem roomFor_zero (s : State) : s.roomFor 0 := fun _ => Nat.le_of_lt_succ s.pc.isLt

/-- With room for the fetch increment under the policy `fault`, the fetch does not wrap. -/
theorem entered_pc_toNat {s : State} (hp : s.cfg.topPolicy = .fault) (hroom : s.roomFor 1) :
    s.entered.pc.toNat = s.pc.toNat + 1 := by
  have := hroom hp
  rw [State.entered_pc]
  bv_omega

/-! ## Meanings that complete unless their operand bytes pass the top -/

/-- The outcome of a meaning with `n` operand bytes that asks for no other room. -/
def CompletesIfRoom (n : Nat) (s : State) (r : Result) : Prop :=
  (s.roomFor n ∧ ∃ t, r = .next t) ∨ (¬ s.roomFor n ∧ r = .fault .pastTop)

section

variable {n : Nat} {s t : State} {r : Result}

theorem completesIfRoom_of_cases {q : Prop}
    (h : (s.roomFor n ∧ r = .next t) ∨ (¬ s.roomFor n ∧ q ∧ r = .fault .pastTop)) : CompletesIfRoom n s r := by
  rcases h with ⟨h, e⟩ | ⟨h, _, e⟩
  · exact .inl ⟨h, t, e⟩
  · exact .inr ⟨h, e⟩

theorem completesIfRoom_zero (e : r = .next t) : CompletesIfRoom 0 s r :=
  .inl ⟨roomFor_zero s, t, e⟩

theorem CompletesIfRoom.stops_iff (h : CompletesIfRoom n s r) : r = .fault .pastTop ↔ ¬ s.roomFor n := by
  rcases h with ⟨h, t, e⟩ | ⟨h, e⟩ <;> simp [h, e]

end

theorem withImmediate_completes (imm8 : Byte) (s : State) (k : Byte → State → State) :
    CompletesIfRoom 1 s (withImmediate imm8 s k) :=
  completesIfRoom_of_cases (withImmediate_cases imm8 s k)

theorem loadFrom_completes (m : Mode) (lo hi : Byte) (s : State) (k : State → Byte → State) :
    CompletesIfRoom (operandCount m) s (loadFrom m lo hi s k) :=
  completesIfRoom_of_cases (loadFrom_cases m lo hi s k)

theorem storeTo_completes (m : Mode) (lo hi v : Byte) (s : State) :
    CompletesIfRoom (operandCount m) s (storeTo m lo hi v s) :=
  completesIfRoom_of_cases (storeTo_cases m lo hi v s)

theorem popToPc_completes (s : State) : CompletesIfRoom 0 s (popToPc s) := by
  rcases popToPc_cases s with ⟨_, e⟩ | ⟨_, e⟩
  · exact completesIfRoom_zero e
  · exact completesIfRoom_zero e

theorem execJsrAbs_completes (lo hi : Byte) (s : State) : CompletesIfRoom 2 s (execJsrAbs lo hi s) := by
  rcases execJsrAbs_cases lo hi s with ⟨h, _, e⟩ | ⟨h, _, e⟩ | ⟨h, _, _, e⟩ | ⟨h, _, _, e⟩ |
    ⟨h, _, _, _, _, _, _, e⟩ | ⟨h, _, _, _, _, e⟩
  · exact .inr ⟨h, e⟩
  · exact .inl ⟨h, _, e⟩
  · exact .inl ⟨h, _, e⟩
  · exact .inl ⟨h, _, e⟩
  · exact .inl ⟨h, _, e⟩
  · exact .inl ⟨h, _, e⟩

/-- Every instruction but a branch asks for the room of its operand bytes alone. -/
theorem exec_completesIfRoom {i : Instr} (hi : i.opcode.format ≠ .rel) (s : State) :
    CompletesIfRoom i.opcode.format.operandWidth s (exec i s) := by
  cases i with
  | beq | bne | bcs | bcc => exact absurd rfl hi
  | ldaImm | ldxImm | ldyImm | adcImm | cmpImm =>
    simp only [exec, execLdaImm, execLdxImm, execLdyImm, execAdcImm, execCmpImm]
    exact withImmediate_completes _ s _
  | ldaZp | ldxZp | ldyZp => exact loadFrom_completes .zeroPage _ _ s _
  | ldaAbs | ldxAbs | ldyAbs => exact loadFrom_completes .absolute _ _ s _
  | staZp | stxZp | styZp | stzZp => exact storeTo_completes .zeroPage _ _ _ s
  | staAbs | stxAbs | styAbs => exact storeTo_completes .absolute _ _ _ s
  | incZp => exact completesIfRoom_of_cases (execIncZp_cases _ s)
  | jmpAbs => exact completesIfRoom_of_cases (execJmpAbs_cases _ _ s)
  | jsrAbs => exact execJsrAbs_completes _ _ s
  | rts => exact popToPc_completes s
  | inx | iny | tax | tay | txa | tya | tsx | txs => exact completesIfRoom_zero rfl

/-! ## Branches -/

/-- The four branches with an offset, each with its condition (spec/44_branch_jump.md R171 to R174). -/
def branchConditions (off8 : Byte) (s : State) : List (Instr × Bool) :=
  [(.beq off8, zeroFlag s.p), (.bne off8, !zeroFlag s.p), (.bcs off8, carryFlag s.p), (.bcc off8, !carryFlag s.p)]

/-- Seen from the execute phase, the offset added to the machine's own branch base passes the top. -/
def State.branchPastTop (s : State) (off8 : Byte) : Prop :=
  (s.cfg.branchBase = .nextInstruction ∧ 0xFFFF < s.pc.toNat + 1 + off8.toNat) ∨
  (s.cfg.branchBase = .operandByte ∧ 0xFFFF < s.pc.toNat + off8.toNat)

theorem format_of_mem_branchConditions {i : Instr} {cond : Bool} {off8 : Byte} {s : State}
    (h : (i, cond) ∈ branchConditions off8 s) : i.opcode.format = .rel := by
  simp only [branchConditions, List.mem_cons, List.not_mem_nil, or_false, Prod.mk.injEq] at h
  rcases h with ⟨rfl, _⟩ | ⟨rfl, _⟩ | ⟨rfl, _⟩ | ⟨rfl, _⟩ <;> rfl

/-- Where the operand byte has room under the policy `fault`, the base itself does not wrap. -/
theorem branchPastTop_iff {s : State} (hp : s.cfg.topPolicy = .fault) (hroom : s.roomFor 1) (off8 : Byte) :
    s.branchPastTop off8 ↔ 0xFFFF < (branchBaseAddr s.cfg.branchBase s.pc (s.pc + 1)).toNat + off8.toNat := by
  have noWrap : (s.pc + 1).toNat = s.pc.toNat + 1 := entered_pc_toNat hp hroom
  rw [State.branchPastTop]
  cases s.cfg.branchBase with
  | nextInstruction => simp only [branchBaseAddr, noWrap, true_and, reduceCtorEq, false_and, or_false]
  | operandByte => simp only [branchBaseAddr, true_and, reduceCtorEq, false_and, false_or]

/-- A branch stops at its operand byte, or because it is taken and its target passes the top. -/
theorem branchIf_stops_iff (cond : Bool) (off8 : Byte) (s : State) :
    branchIf cond off8 s = .fault .pastTop ↔
      s.cfg.topPolicy = .fault ∧ (0xFFFF < s.pc.toNat + 1 ∨ cond = true ∧ s.branchPastTop off8) := by
  rcases branchIf_cases cond off8 s with ⟨hroom, rfl, e⟩ | ⟨hroom, rfl, e, hle⟩ | ⟨hp, e, h⟩ <;> rw [e]
  · refine ⟨nofun, ?_⟩
    rintro ⟨hp, hlt | ⟨hc, _⟩⟩
    · exact absurd (hroom hp) (not_le.mpr hlt)
    · cases hc
  · refine ⟨nofun, ?_⟩
    rintro ⟨hp, hlt | ⟨_, hlt⟩⟩
    · exact absurd (hroom hp) (not_le.mpr hlt)
    · exact absurd (hle hp) (not_le.mpr ((branchPastTop_iff hp hroom off8).mp hlt))
  · refine ⟨fun _ => ⟨hp, ?_⟩, fun _ => rfl⟩
    rcases h with hn | ⟨hroom, hc, hlt⟩
    · exact .inl (not_roomFor_iff.mp hn).2
    · exact .inr ⟨hc, (branchPastTop_iff hp hroom off8).mpr hlt⟩

/-! ## Execute phases and steps -/

/-- An execute phase stops past the top at its operand bytes, or as a taken branch: never otherwise. -/
theorem exec_stops_iff {i : Instr} {s : State} :
    exec i s = .fault .pastTop ↔ s.cfg.topPolicy = .fault ∧
      (0xFFFF < s.pc.toNat + i.opcode.format.operandWidth ∨
        ∃ off8, (i, true) ∈ branchConditions off8 s ∧ s.branchPastTop off8) := by
  by_cases hrel : i.opcode.format = .rel
  · rw [hrel]
    cases i with
    | beq off8 | bne off8 | bcs off8 | bcc off8 =>
      refine (branchIf_stops_iff _ off8 s).trans ?_
      simp [branchConditions, Format.operandWidth]
    | _ => cases hrel
  · rw [(exec_completesIfRoom hrel s).stops_iff, not_roomFor_iff]
    refine and_congr_right fun _ => (or_iff_left ?_).symm
    rintro ⟨off8, hm, _⟩
    exact hrel (format_of_mem_branchConditions hm)

/-- An instruction that does not end below the top stops, at its opcode or at an operand byte. -/
theorem step_stops_of_length {s : State} {i : Instr} {rest : List Byte} (hr : s.run = true)
    (hp : s.cfg.topPolicy = .fault) (hd : decodeWith s.cfg.opcodes s.bytesAtPc = .ok (i, rest))
    (hlt : 0xFFFF < s.pc.toNat + 1 + i.opcode.format.operandWidth) : step s = .fault .pastTop := by
  by_cases hroom : s.roomFor 1
  · rw [step_of_decode hr hroom hd, exec_stops_iff, entered_pc_toNat hp hroom]
    exact ⟨hp, .inl hlt⟩
  · exact step_of_noRoom hr hroom

/-- A step that stops past the top does so at the fetch increment, or in the execute phase of the decoded instruction. -/
theorem step_stops_cause {s : State} (h : step s = .fault .pastTop) :
    (s.cfg.topPolicy = .fault ∧ s.pc = 0xFFFF) ∨
    (s.roomFor 1 ∧ ∃ i rest, decodeWith s.cfg.opcodes s.bytesAtPc = .ok (i, rest) ∧ exec i s.entered = .fault .pastTop) := by
  rcases step_cases s with ⟨_, e⟩ | ⟨_, hn, _⟩ | ⟨_, _, _, e⟩ | ⟨_, hroom, i, rest, hd, e⟩
  · rw [e] at h
    cases h
  · obtain ⟨hp, hlt⟩ := not_roomFor_iff.mp hn
    exact .inl ⟨hp, by bv_omega⟩
  · rw [e] at h
    cases h
  · exact .inr ⟨hroom, i, rest, hd, e.symm.trans h⟩

/-- Settles O50: a step is its fetch increment and then the execute phase, and each of them says exactly where it stops. -/
theorem topPolicyFaultStopsPastTop : Obligations.TopPolicyFaultStopsPastTop := by
  refine ⟨fun s hr hp hpc => ?_, fun s i rest hr => step_stops_of_length hr, fun s off8 i hp hm => ⟨?_, ?_⟩, fun s h => ?_⟩
  · refine step_of_noRoom hr (not_roomFor_iff.mpr ⟨hp, ?_⟩)
    rw [hpc]
    decide
  · exact fun hb hlt => exec_stops_iff.mpr ⟨hp, .inr ⟨off8, hm, .inl ⟨hb, hlt⟩⟩⟩
  · exact fun hb hlt => exec_stops_iff.mpr ⟨hp, .inr ⟨off8, hm, .inr ⟨hb, hlt⟩⟩⟩
  · rcases step_stops_cause h with ⟨hp, hpc⟩ | ⟨hroom, i, rest, hd, e⟩
    · exact ⟨hp, .inl hpc⟩
    · obtain ⟨hp, cause⟩ := exec_stops_iff.mp e
      simp only [State.branchPastTop, entered_pc_toNat (s := s) hp hroom] at cause
      exact ⟨hp, .inr ⟨i, rest, hd, cause⟩⟩

end Sys2Proof.Machine
end

section
/-! PROOFS. The decoder and the encoder: one table read in both directions. -/

namespace Sys2Proof.Machine

/-! ## The opcode table as a relation between bytes and operations -/

theorem bytesDistinct_iff (t : OpcodeTable) : t.bytesDistinct = true ↔ (t.map OpcodeRow.byte).Nodup := by
  induction t with
  | nil => simp [OpcodeTable.bytesDistinct]
  | cons r t ih => simp [OpcodeTable.bytesDistinct, ih]

theorem opsDistinct_iff (t : OpcodeTable) : t.opsDistinct = true ↔ (t.map OpcodeRow.op).Nodup := by
  induction t with
  | nil => simp [OpcodeTable.opsDistinct]
  | cons r t ih => simp [OpcodeTable.opsDistinct, ih]

/-- Where no two members share a key, a search for a member's key finds that member. -/
theorem find?_key_of_mem {α κ : Type} [BEq κ] [LawfulBEq κ] {key : α → κ} {l : List α} {a : α}
    (hl : (l.map key).Nodup) (ha : a ∈ l) : l.find? (fun r => key r == key a) = some a := by
  obtain ⟨c, hc⟩ := Option.isSome_iff_exists.mp (List.find?_isSome (p := (key · == key a)).mpr ⟨a, ha, beq_self_eq_true _⟩)
  have same : key c = key a := by simpa using List.find?_some hc
  rwa [List.inj_on_of_nodup_map hl (List.mem_of_find?_eq_some hc) ha same] at hc

/-- Where no two members share a key, a value is found under a key exactly when a member carries both. -/
theorem map_find?_key_eq_some_iff {α κ ν : Type} [BEq κ] [LawfulBEq κ] {key : α → κ} {val : α → ν} {l : List α} {k : κ}
    {v : ν} (hl : (l.map key).Nodup) :
    (l.find? fun r => key r == k).map val = some v ↔ ∃ r ∈ l, key r = k ∧ val r = v := by
  rw [Option.map_eq_some_iff]
  constructor
  · rintro ⟨r, hr, hv⟩
    exact ⟨r, List.mem_of_find?_eq_some hr, by simpa using List.find?_some hr, hv⟩
  · rintro ⟨r, hr, rfl, hv⟩
    exact ⟨r, find?_key_of_mem hl hr, hv⟩

/-- A table in order is read alike in both directions: each asks for a row with the byte and the operation. -/
theorem lookupOpcode_eq_some_iff_byteOf {t : OpcodeTable} (ht : t.wellFormed = true) {b : Byte} {op : Opcode} :
    lookupOpcode t b = some op ↔ byteOf t op = some b := by
  obtain ⟨hbytes, hops⟩ := Bool.and_eq_true_iff.mp ht
  rw [lookupOpcode, byteOf, map_find?_key_eq_some_iff ((bytesDistinct_iff t).mp hbytes),
    map_find?_key_eq_some_iff ((opsDistinct_iff t).mp hops)]
  exact exists_congr fun r => and_congr_right fun _ => and_comm

/-- A byte is unknown exactly when no row has it (spec/30_encoding.md R76). -/
theorem lookupOpcode_eq_none_iff {t : OpcodeTable} {b : Byte} :
    lookupOpcode t b = none ↔ b ∉ t.map OpcodeRow.byte := by
  simp [lookupOpcode]

/-- A table with a row for an instruction has a byte for its operation. -/
theorem exists_byteOf {t : OpcodeTable} {i : Instr} (hi : i.wellFormed t = true) : ∃ b, byteOf t i.opcode = some b := by
  obtain ⟨r, hr⟩ := Option.isSome_iff_exists.mp (List.find?_isSome.mpr (List.any_eq_true.mp hi))
  exact ⟨r.byte, congrArg (Option.map OpcodeRow.byte) hr⟩

theorem opcodeTable_wellFormed : opcodeTable.wellFormed = true := by decide

/-- The table of R74 has a row for every instruction. -/
theorem wellFormed_opcodeTable (i : Instr) : i.wellFormed opcodeTable = true := by
  cases i <;> rfl

/-! ## What the decoder answers -/

@[simp] theorem opcode_instrOf (op : Opcode) (b1 b2 : Byte) : (instrOf op b1 b2).opcode = op := by
  cases op <;> rfl

/-- The operand bytes are the first ones of the two offered, as many as the format has (spec/30_encoding.md R71). -/
theorem operandBytes_instrOf (op : Opcode) (b1 b2 : Byte) :
    operandBytes (instrOf op b1 b2) = [b1, b2].take op.format.operandWidth := by
  cases op <;> rfl

theorem length_operandBytes (i : Instr) : (operandBytes i).length = i.opcode.format.operandWidth :=
  (Laws.Encoding.every_instruction i).1

/-- A known opcode byte followed by the operand bytes of an instruction of its operation decodes to that instruction
(spec/30_encoding.md R80). -/
theorem decodeWith_of_lookup_some {t : OpcodeTable} {b : Byte} {i : Instr} (h : lookupOpcode t b = some i.opcode)
    (rest : List Byte) : decodeWith t (b :: (operandBytes i ++ rest)) = .ok (i, rest) := by
  rw [decodeWith, h]
  cases i <;> rfl

/-- An answer of the decoder: the first byte is in a row, and the operand bytes are read off what follows it. -/
theorem decodeWith_ok {t : OpcodeTable} {bytes rest : List Byte} {i : Instr} (h : decodeWith t bytes = .ok (i, rest)) :
    ∃ b, lookupOpcode t b = some i.opcode ∧ bytes = b :: (operandBytes i ++ rest) := by
  cases bytes with
  | nil => cases h
  | cons b bs =>
    rw [decodeWith] at h
    split at h
    · cases h
    · next op hop =>
      refine ⟨b, ?_⟩
      -- An answer is `instrOf` of as many of the bytes as the format asks for.
      split at h <;> cases h <;> simp [operandBytes_instrOf, *]

/-- The decoder calls a byte unknown exactly when it is in no row: it may run short after a known one, but does not refuse it. -/
theorem decodeWith_unknownOpcode_iff {t : OpcodeTable} {b : Byte} {rest : List Byte} :
    decodeWith t (b :: rest) = .error (.unknownOpcode b) ↔ lookupOpcode t b = none := by
  refine ⟨fun h => ?_, fun h => decodeWith_of_lookup_none h rest⟩
  rw [decodeWith] at h
  split at h
  · assumption
  · split at h <;> cases h

/-! ## What the encoder answers -/

theorem encodeWith_eq_some_iff {t : OpcodeTable} {i : Instr} {e : List Byte} :
    encodeWith t i = some e ↔ ∃ b, byteOf t i.opcode = some b ∧ b :: operandBytes i = e :=
  Option.map_eq_some_iff

/-- By a table in order, every instruction with a row has an encoding, and it decodes to the instruction. -/
theorem decodeWith_encodeWith {t : OpcodeTable} (ht : t.wellFormed = true) {i : Instr} (hi : i.wellFormed t = true)
    (rest : List Byte) : ∃ e, encodeWith t i = some e ∧ decodeWith t (e ++ rest) = .ok (i, rest) := by
  obtain ⟨b, hb⟩ := exists_byteOf hi
  exact ⟨_, encodeWith_eq_some_iff.mpr ⟨b, hb, rfl⟩,
    decodeWith_of_lookup_some ((lookupOpcode_eq_some_iff_byteOf ht).mpr hb) rest⟩

/-- Settles O9: the table in order leads from the operation to its byte and back, and the operand bytes rebuild the instruction. -/
theorem encodeThenDecodeGivesInstruction : Obligations.EncodeThenDecodeGivesInstruction := by
  refine ⟨fun t i rest ht hi => decodeWith_encodeWith ht hi rest, fun i rest => ?_⟩
  obtain ⟨e, he, hd⟩ := decodeWith_encodeWith opcodeTable_wellFormed (wellFormed_opcodeTable i) rest
  rwa [encode, he]

/-- Settles O10: what the decoder has read is the byte the table gives the operation, then the operand bytes. -/
theorem decodedBytesAreTheEncoding : Obligations.DecodedBytesAreTheEncoding := by
  intro t bytes rest i ht h
  obtain ⟨b, hb, rfl⟩ := decodeWith_ok h
  refine ⟨b :: operandBytes i, encodeWith_eq_some_iff.mpr ⟨b, (lookupOpcode_eq_some_iff_byteOf ht).mp hb, rfl⟩, rfl, ?_⟩
  rw [List.length_cons, length_operandBytes, Nat.add_comm]

/-! ## The 34 bytes of R74 -/

/-- In a table that gives no byte twice, the 256 bytes are the unknown ones and one for each row. -/
theorem length_unknown_add_length {t : OpcodeTable} (ht : t.bytesDistinct = true) :
    ((List.range 256).filter fun n => (lookupOpcode t (BitVec.ofNat 8 n)).isNone).length + t.length = 256 := by
  have known : ((List.range 256).filter fun n => !(lookupOpcode t (BitVec.ofNat 8 n)).isNone).Perm
      ((t.map OpcodeRow.byte).map BitVec.toNat) := by
    refine (List.perm_ext_iff_of_nodup (List.nodup_range.filter _)
      (((bytesDistinct_iff t).mp ht).map BitVec.toNat_injective)).mpr fun n => ?_
    rw [List.mem_filter, List.mem_range, Bool.not_eq_true', Option.isNone_eq_false_iff, Option.isSome_iff_ne_none, Ne,
      lookupOpcode_eq_none_iff, not_not, List.mem_map (f := BitVec.toNat)]
    constructor
    · exact fun ⟨hn, hb⟩ => ⟨_, hb, (BitVec.toNat_ofNat n 8).trans (Nat.mod_eq_of_lt hn)⟩
    · rintro ⟨b, hb, rfl⟩
      exact ⟨b.isLt, by rwa [BitVec.ofNat_toNat, BitVec.setWidth_eq]⟩
  have split := List.length_eq_length_filter_add (l := List.range 256)
    fun n => (lookupOpcode t (BitVec.ofNat 8 n)).isNone
  rw [known.length_eq, List.length_map, List.length_map, List.length_range] at split
  exact split.symm

/-- Settles O8: the decoder evaluates on each opcode byte, whatever its operand bytes are. -/
theorem specWordsDecode : Obligations.SpecWordsDecode := by
  intro b lo hi rest
  and_intros <;> rfl

/-- Settles O11: a byte in a row is refused by nothing but a list that ends early, and three bytes are enough for every row. -/
theorem onlyThirtyFourBytesAreOpcodes : Obligations.OnlyThirtyFourBytesAreOpcodes := by
  refine ⟨fun b rest => decodeWith_unknownOpcode_iff.trans lookupOpcode_eq_none_iff, fun b b1 b2 => ?_, ?_⟩
  · rcases decodeWith_three opcodeTable b b1 b2 with ⟨_, hd⟩ | ⟨op, rest, _, hd⟩
    · exact .inr hd
    · exact .inl ⟨_, rest, hd⟩
  · exact Nat.add_right_cancel (length_unknown_add_length (Bool.and_eq_true_iff.mp opcodeTable_wellFormed).1)

end Sys2Proof.Machine
end

section
/-! PROOFS. The addressing-mode resolver: the address of each mode as a number, and the mode selector. -/

namespace Sys2Proof.Machine

/-! ## Addresses as numbers -/

/-- `hi:lo` is the address of the number `hi * 256 + lo` (spec/20_memory.md R54). -/
theorem ofNat_toNat_eq_hiLo (hi lo : Byte) : BitVec.ofNat 16 (hi.toNat * 256 + lo.toNat) = hiLo hi lo := by
  refine BitVec.eq_of_toNat_eq ?_
  have hhi := hi.isLt
  have hlo := lo.isLt
  rw [hiLo, BitVec.toNat_append, ← Nat.shiftLeft_add_eq_or_of_lt hlo, Nat.shiftLeft_eq, BitVec.toNat_ofNat]
  omega

/-- The zero-page-indexed sum stays in page zero (spec/40_resolver.md R94, R96). -/
theorem ofNat_mod_eq_zext16_add (lo idx : Byte) :
    BitVec.ofNat 16 ((lo.toNat + idx.toNat) % 256) = zext16 (lo + idx) := by
  rw [← ofNat_toNat_eq_zext16, BitVec.toNat_add]

/-- The absolute-indexed sum wraps at 16 bits (spec/40_resolver.md R95, R97, R101). -/
theorem ofNat_mod_eq_hiLo_add_zext16 (hi lo idx : Byte) :
    BitVec.ofNat 16 ((hi.toNat * 256 + lo.toNat + idx.toNat) % 65536) = hiLo hi lo + zext16 idx := by
  rw [← ofNat_toNat_eq_hiLo, ← ofNat_toNat_eq_zext16, ← BitVec.ofNat_add]
  exact BitVec.eq_of_toNat_eq (by simp)

/-! ## The resolver on the bytes at `PC` -/

/-- With room for its operand bytes, a mode gives its address and steps over them (spec/40_resolver.md R90). -/
theorem resolve_ok {m : Mode} {s : State} (h : s.roomFor (operandCount m)) :
    resolve m s = .ok (effectiveAddress m s.pc (s.memRead s.pc) (s.memRead (s.pc + 1)) s.x s.y)
      (s.setPc (s.pc + BitVec.ofNat 16 (operandCount m))) :=
  resolveOperands_ok h

/-- The opcode table uses the three direct modes only (spec/40_resolver.md R99). -/
theorem opcode_mode_direct (op : Opcode) :
    op.mode = none ∨ op.mode = some .immediate ∨ op.mode = some .zeroPage ∨ op.mode = some .absolute := by
  cases op <;> decide

/-- Settles O38: the resolver's sums of bytes and addresses, read as numbers. -/
theorem indexedModesMaskOrWrap : Obligations.IndexedModesMaskOrWrap := by
  refine ⟨fun s => ⟨fun h => ?_, fun h => ?_⟩, opcode_mode_direct⟩
  · rw [ofNat_mod_eq_zext16_add, ofNat_mod_eq_zext16_add]
    exact ⟨resolve_ok (m := .zeroPageX) h, resolve_ok (m := .zeroPageY) h⟩
  · rw [ofNat_mod_eq_hiLo_add_zext16, ofNat_mod_eq_hiLo_add_zext16]
    exact ⟨resolve_ok (m := .absoluteX) h, resolve_ok (m := .absoluteY) h⟩

/-- Settles O39: Immediate takes no byte; the other two give their operand bytes read as a number. -/
theorem directModesFormTheAddress : Obligations.DirectModesFormTheAddress := by
  refine fun s => ⟨resolveOperands_immediate _ _ s, fun h => ?_, fun h => ?_⟩
  · rw [ofNat_toNat_eq_zext16]
    exact resolve_ok (m := .zeroPage) h
  · rw [ofNat_toNat_eq_hiLo]
    exact resolve_ok (m := .absolute) h

/-! ## The mode selector -/

/-- The seven modes in the order of the selector (spec/30_encoding.md R78). -/
def modeOrder : List Mode :=
  [.immediate, .zeroPage, .absolute, .zeroPageX, .absoluteX, .zeroPageY, .absoluteY]

/-- The selector is an index into the seven modes; 7 is past their end. -/
theorem modeOfSelector_eq_getElem? (sel : BitVec 3) : modeOfSelector sel = modeOrder[sel.toNat]? := by
  revert sel
  decide

theorem resolveSelector_of_some {sel : BitVec 3} {m : Mode} (h : modeOfSelector sel = some m) (s : State) :
    resolveSelector sel s = resolve m s := by
  rw [resolveSelector, h]

theorem resolveSelector_of_none {sel : BitVec 3} (h : modeOfSelector sel = none) (s : State) :
    resolveSelector sel s = .halt (raise (.invalidAddressingMode sel) s) := by
  rw [resolveSelector, h]

/-- Settles O40: selector 7 is no mode, and a raise writes run latch, fault record and phase only; a smaller selector is the
index of its mode. -/
theorem invalidSelectorIsFatal : Obligations.InvalidSelectorIsFatal := by
  refine ⟨fun s => resolveSelector_of_none (modeOfSelector_none.mpr rfl) s, fun s k => ?_⟩
  have listed : modeOrder[k.val]? = some (modeOrder[k.val]'k.isLt) := List.getElem?_eq_getElem k.isLt
  have number : (BitVec.ofNat 3 k.val).toNat = k.val := by
    rw [BitVec.toNat_ofNat]
    omega
  refine ⟨_, listed, resolveSelector_of_some ?_ s⟩
  rw [modeOfSelector_eq_getElem?, number, listed]

end Sys2Proof.Machine
end

section
/-! PROOFS. The dispatcher: what a step answers, where `PC` ends, how a core waits for input and how it stays halted. -/

namespace Sys2Proof.Machine

/-! ## Fetch, decode, execute -/

/-- Settles O7: with room for the fetch increment, of the cases of a step only the decoded instruction's is left. -/
theorem stepRunsDecodedInstruction : Obligations.StepRunsDecodedInstruction :=
  fun _ _ _ hr hroom hd => step_of_decode hr hroom hd

/-! ## Every step has an outcome -/

theorem branchIf_next_or_stops (cond : Bool) (off8 : Byte) (s : State) :
    (∃ t, branchIf cond off8 s = .next t) ∨ branchIf cond off8 s = .fault .pastTop := by
  rcases branchIf_cases cond off8 s with ⟨_, _, e⟩ | ⟨_, _, e, _⟩ | ⟨_, e, _⟩
  · exact .inl ⟨_, e⟩
  · exact .inl ⟨_, e⟩
  · exact .inr e

/-- An execute phase answers a next state or stops past the top: it is never refused and never finds the core halted. -/
theorem exec_next_or_stops (i : Instr) (s : State) : (∃ t, exec i s = .next t) ∨ exec i s = .fault .pastTop := by
  by_cases hrel : i.opcode.format = .rel
  · cases i with
    | beq | bne | bcs | bcc => exact branchIf_next_or_stops _ _ s
    | _ => cases hrel
  · exact (exec_completesIfRoom hrel s).imp And.right And.right

/-- A step of a running core answers a next state or stops past the top. -/
theorem step_next_or_stops {s : State} (hr : s.run = true) : (∃ t, step s = .next t) ∨ step s = .fault .pastTop := by
  rcases step_cases s with ⟨hn, _⟩ | ⟨_, _, _, e⟩ | ⟨_, _, _, e⟩ | ⟨_, _, i, _, _, e⟩
  · rw [hr] at hn
    cases hn
  · exact .inr e
  · exact .inl ⟨_, e⟩
  · rw [e]
    exact exec_next_or_stops i s.entered

/-- Only a machine with the policy `fault` stops past the top (spec/20_memory.md R63). -/
theorem topPolicy_of_step_stops {s : State} (h : step s = .fault .pastTop) : s.cfg.topPolicy = .fault := by
  rcases step_stops_cause h with ⟨hp, _⟩ | ⟨_, _, _, _, e⟩
  · exact hp
  · exact (exec_stops_iff.mp e).1

/-- A halted core's step shows the fault record (spec/41_dispatcher.md R118). -/
theorem step_of_halted {s : State} (hr : s.run = false) : step s = .fault (.halted s.fault) := by
  rw [step, hr]
  rfl

/-- Settles O49: a running core's step could only stop past the top, which `wrap` excludes; a halted core's is a fault. -/
theorem runningCoreAlwaysSteps : Obligations.RunningCoreAlwaysSteps := by
  refine ⟨fun s hr hwrap => (step_next_or_stops hr).resolve_right fun h => ?_, fun s r => ?_⟩
  · have hp := topPolicy_of_step_stops h
    rw [hwrap] at hp
    cases hp
  · cases hr : s.run with
    | false =>
      rw [step_of_halted hr]
      nofun
    | true =>
      rcases step_next_or_stops hr with ⟨t, e⟩ | e
      · rw [e]
        nofun
      · rw [e]
        nofun

/-! ## The program counter -/

/-- An execute phase that does not set `PC` itself steps over its operand bytes (spec/41_dispatcher.md R115). -/
theorem exec_next_pc {i : Instr} {s t : State} (hi : setsPc i = false) (h : exec i s = .next t) :
    t.pc = s.pc + BitVec.ofNat 16 i.opcode.format.operandWidth := by
  cases i with
  | beq | bne | bcs | bcc | jmpAbs | jsrAbs | rts => cases hi
  | ldaImm | ldxImm | ldyImm | adcImm | cmpImm =>
    simp only [exec, execLdaImm, execLdxImm, execLdyImm, execAdcImm, execCmpImm] at h
    rw [withImmediate_next h]
    rfl
  | ldaZp | ldaAbs | ldxZp | ldxAbs | ldyZp | ldyAbs => rw [loadFrom_next h]; rfl
  | staZp | staAbs | stxZp | stxAbs | styZp | styAbs | stzZp => rw [storeTo_next h]; rfl
  | incZp => rw [execIncZp_next h]; rfl
  | inx | iny | tax | tay | txa | tya | tsx | txs =>
    rw [complete_next h]
    exact (BitVec.add_zero s.pc).symm

/-- Settles O51: the step is the execute phase, which finds `PC` at pc0 + 1. -/
theorem programCounterLaw : Obligations.ProgramCounterLaw := by
  intro s t i rest hr hd hi h
  obtain ⟨_, hroom, _⟩ := step_next h
  rw [step_of_decode hr hroom hd] at h
  exact exec_next_pc hi h

/-! ## Waiting for a character -/

/-- Room for an instruction at pc0 is room for its operand bytes in the execute phase. -/
theorem roomFor_entered {s : State} {n : Nat} (h : s.roomFor (n + 1)) : s.entered.roomFor n := by
  intro (hp : s.cfg.topPolicy = .fault)
  have := h hp
  rw [entered_pc_toNat hp (roomFor_mono h (by omega))]
  omega

section

variable {s : State} {lo hi : Byte} {rest : List Byte}

/-- A call to the input trap waits where no character is ready and takes the first one where there is one
(spec/47_host_io.md R213, R218). -/
theorem execJsrAbs_trapIn (hroom : s.roomFor 2) (hcsp : s.csp ≠ 0) (hin : hiLo hi lo = s.cfg.trapIn)
    (hne : s.cfg.trapIn ≠ s.cfg.trapOut) :
    (s.input = [] ∧ execJsrAbs lo hi s = .next { s with pc := s.pc - 1, phase := .ioWait }) ∨
    (∃ b bs, s.input = b :: bs ∧ execJsrAbs lo hi s =
      .next { s.after 2 with a := b, input := bs, cs := setSlot s.cs s.csp (s.pc + 2) }) := by
  rcases execJsrAbs_cases lo hi s with ⟨hn, _⟩ | ⟨_, hc, _⟩ | ⟨_, _, hn, _⟩ | ⟨_, _, ho, _⟩ |
    ⟨_, _, _, _, takes⟩ | ⟨_, _, _, _, waits⟩
  · exact absurd hroom hn
  · exact absurd hc hcsp
  · simp [isTrap, hin] at hn
  · exact absurd (hin.symm.trans ho) hne
  · exact .inr takes
  · exact .inl waits

/-- The same of a step at the call: the wait leaves `PC` at its opcode byte, the completed call has it past the operand. -/
theorem step_trapIn (hr : s.run = true) (hroom : s.roomFor 3) (hcsp : s.csp ≠ 0)
    (hd : decodeWith s.cfg.opcodes s.bytesAtPc = .ok (.jsrAbs lo hi, rest)) (hin : hiLo hi lo = s.cfg.trapIn)
    (hne : s.cfg.trapIn ≠ s.cfg.trapOut) :
    (s.input = [] ∧ step s = .next { s with phase := .ioWait }) ∨
    (∃ b bs, s.input = b :: bs ∧ step s =
      .next { s with a := b, input := bs, pc := s.pc + 3, cs := setSlot s.cs s.csp (s.pc + 3), phase := .fetch }) := by
  have enter : step s = execJsrAbs lo hi s.entered := step_of_decode hr (roomFor_mono hroom (by decide)) hd
  have past : s.pc + 1 + 2 = s.pc + 3 := BitVec.add_assoc s.pc 1 2
  have back : s.pc + 1 - 1 = s.pc := BitVec.add_sub_cancel s.pc 1
  rcases execJsrAbs_trapIn (roomFor_entered hroom) hcsp hin hne with ⟨hempty, e⟩ | ⟨b, bs, hready, e⟩
  · exact .inl ⟨hempty, by rw [enter, e, State.entered_pc, back]; rfl⟩
  · exact .inr ⟨b, bs, hready, by rw [enter, e, ← past]; rfl⟩

end

/-- Settles O42: neither the phase nor a delivery reaches what the call is decoded from, so all three are steps at the same
call, and the first byte of `IN` is the one delivered. -/
theorem inputTrapWaitsForCharacter : Obligations.InputTrapWaitsForCharacter := by
  intro s lo hi b rest hr hroom hcsp hempty hd hin hne
  have waits (ph : Phase) : step { s with phase := ph } = .next { s with phase := .ioWait } := by
    rcases step_trapIn (s := { s with phase := ph }) hr hroom hcsp hd hin hne with ⟨_, e⟩ | ⟨_, _, hready, _⟩
    · exact e
    · cases hempty.symm.trans hready
  refine ⟨waits s.phase, waits .ioWait, ?_⟩
  have delivered : (deliver b { s with phase := .ioWait }).input = [b] := by
    rw [deliver, State.setInput_input, hempty, List.nil_append]
  rcases step_trapIn (s := deliver b { s with phase := .ioWait }) hr hroom hcsp hd hin hne with
    ⟨hnone, _⟩ | ⟨_, _, hready, e⟩
  · cases delivered.symm.trans hnone
  · cases delivered.symm.trans hready
    rw [e, ← hempty]
    rfl

/-! ## Halted -/

/-- A run ends at its first fault. -/
theorem run_of_step_fault (M : Host.Core) {s : M.State} {r : M.Fault} (h : M.step s = .fault r) (k : Nat) :
    M.run (k + 1) s = .fault r := by
  rw [Host.Core.run, h]

/-- Settles O47: a halted core's step is a fault, which ends every run at once; the raise and the reset input are the
updates they are written as. -/
theorem haltedIsAbsorbing : Obligations.HaltedIsAbsorbing :=
  ⟨fun _ hr => ⟨step_of_halted hr, run_of_step_fault Sys2Proof.core (step_of_halted hr)⟩, fun _ _ => rfl, fun _ => rfl⟩

end Sys2Proof.Machine
end

section
/-! PROOFS. Loads, stores and store-zero where `PC` has room for the operand bytes. -/

namespace Sys2Proof.Machine

/-! ## The shared shapes, with room -/

theorem withImmediate_of_roomFor {s : State} (h : s.roomFor 1) (imm8 : Byte) (k : Byte → State → State) :
    withImmediate imm8 s k = .next ((k imm8 (s.setPc (s.pc + 1))).setPhase .fetch) :=
  ((withImmediate_cases imm8 s k).resolve_right fun ⟨hn, _⟩ => hn h).2

section

variable {m : Mode} {s : State}

theorem loadFrom_of_roomFor (h : s.roomFor (operandCount m)) (lo hi : Byte) (k : State → Byte → State) :
    loadFrom m lo hi s k = .next ((k (s.setPc (s.pc + BitVec.ofNat 16 (operandCount m)))
      (s.memRead (effectiveAddress m s.pc lo hi s.x s.y))).setPhase .fetch) :=
  ((loadFrom_cases m lo hi s k).resolve_right fun ⟨hn, _⟩ => hn h).2

theorem storeTo_of_roomFor (h : s.roomFor (operandCount m)) (lo hi v : Byte) :
    storeTo m lo hi v s =
      .next ((s.after (operandCount m)).memWrite (effectiveAddress m s.pc lo hi s.x s.y) v) :=
  ((storeTo_cases m lo hi v s).resolve_right fun ⟨hn, _⟩ => hn h).2

end

/-! ## The instructions -/

/-- Settles O13: the three are one shape with three destinations, and no destination is `PC` or the phase. -/
theorem immediateLoadsTakeTheOperand : Obligations.ImmediateLoadsTakeTheOperand := fun _ imm8 hroom =>
  have loads := withImmediate_of_roomFor hroom imm8
  ⟨loads fun v t => t.setA v, loads fun v t => t.setX v, loads fun v t => t.setY v⟩

/-- Settles O14: the modes are zero page, with one operand byte, and absolute, with two; the byte is read before the
destination is written. -/
theorem memoryLoadsTakeTheByte : Obligations.MemoryLoadsTakeTheByte := by
  intro s zp8 lo hi
  refine ⟨fun hroom => ?zeroPage, fun hroom => ?absolute⟩
  case zeroPage =>
    have loads := loadFrom_of_roomFor (m := .zeroPage) hroom zp8 0
    exact ⟨loads State.setA, loads State.setX, loads State.setY⟩
  case absolute =>
    have loads := loadFrom_of_roomFor (m := .absolute) hroom lo hi
    exact ⟨loads State.setA, loads State.setX, loads State.setY⟩

/-- Settles O15: the same two modes; what is written is the register as the instruction finds it, or zero. -/
theorem storesWriteTheRegister : Obligations.StoresWriteTheRegister := by
  intro s zp8 lo hi
  refine ⟨fun hroom => ?zeroPage, fun hroom => ?absolute⟩
  case zeroPage =>
    have stores := storeTo_of_roomFor (m := .zeroPage) hroom zp8 0
    exact ⟨stores s.a, stores s.x, stores s.y, stores aluZero⟩
  case absolute =>
    have stores := storeTo_of_roomFor (m := .absolute) hroom lo hi
    exact ⟨stores s.a, stores s.x, stores s.y⟩

end Sys2Proof.Machine
end

section
/-! PROOFS. The four conditional branches where `PC` has room for the operand byte and, when taken, for the target. -/

namespace Sys2Proof.Machine

/-- The four branches are one shape that differs in its condition (spec/44_branch_jump.md R170 to R174). -/
theorem exec_of_mem_branchConditions {i : Instr} {cond : Bool} {off8 : Byte} {s : State}
    (h : (i, cond) ∈ branchConditions off8 s) : exec i s = branchIf cond off8 s := by
  simp only [branchConditions, List.mem_cons, List.not_mem_nil, or_false, Prod.mk.injEq] at h
  rcases h with ⟨rfl, rfl⟩ | ⟨rfl, rfl⟩ | ⟨rfl, rfl⟩ | ⟨rfl, rfl⟩ <;> rfl

/-- Settles O24: every branch is `branchIf` of its condition, and the room asked for is that of the base in force. -/
theorem branchesGoForwardOrFallThrough : Obligations.BranchesGoForwardOrFallThrough := by
  intro s off8 i cond hroom hmem
  rw [exec_of_mem_branchConditions hmem]
  have taken := branchIf_true (off8 := off8) hroom
  refine ⟨?notTaken, ?nextInstruction, ?operandByte⟩
  case notTaken =>
    rintro rfl
    exact branchIf_false hroom
  case nextInstruction =>
    rintro rfl hbase htarget
    rw [hbase] at taken
    exact taken htarget
  case operandByte =>
    rintro rfl hbase htarget
    rw [hbase] at taken
    exact taken htarget

end Sys2Proof.Machine
end

section
/-! PROOFS. Push and pop (spec/45_call_return.md), runs of them, and the return that undoes a call. -/

namespace Sys2Proof.Machine

/-! ## One push, one pop -/

/-- A push where `CSP` is not 0 writes the slot `CSP` names and takes one from `CSP` (R180). -/
theorem push_of_csp_ne_zero {s : State} (h : s.csp ≠ 0) (ret : Addr) :
    push ret s = .ok () (s.setCallStack (setSlot s.cs s.csp ret) (s.csp - 1)) :=
  if_neg h

/-- A pop where `CSP` is not 255 adds one to `CSP` and reads the slot it then names (R181). -/
theorem pop_of_csp_ne_empty {s : State} (h : s.csp ≠ 255) :
    pop s = .ok (slotAt s.cs (s.csp + 1)) (s.setCallStack s.cs (s.csp + 1)) :=
  if_neg h

/-- Settles O26: the two cases of a push, with the read-back of the slot written. -/
theorem pushWritesSlotThenMovesPointer : Obligations.PushWritesSlotThenMovesPointer := by
  refine fun s ret => ⟨fun h => ?_, fun h => ⟨if_pos h, rfl, h⟩⟩
  exact ⟨_, push_of_csp_ne_zero h ret, slotAt_setSlot_same _ _ _, fun _ => slotAt_setSlot_other _ _,
    show (s.csp - 1).toNat = s.csp.toNat - 1 by bv_omega, rfl⟩

/-- Settles O27: the two cases of a pop. -/
theorem popMovesPointerThenReadsSlot : Obligations.PopMovesPointerThenReadsSlot := by
  refine fun s => ⟨fun h => ?_, fun h => ⟨if_pos h, rfl, h⟩⟩
  exact ⟨_, pop_of_csp_ne_empty h, show (s.csp + 1).toNat = s.csp.toNat + 1 by bv_omega, rfl⟩

/-! ## Sequences of pushes and pops, on the list of outstanding addresses -/

/-- A push puts its address in front of the list. -/
theorem outstanding_pushed {s : State} (h : s.csp ≠ 0) (ret : Addr) :
    (s.setCallStack (setSlot s.cs s.csp ret) (s.csp - 1)).outstanding = ret :: s.outstanding := by
  have cons := outstanding_eq_cons (s := s.setCallStack (setSlot s.cs s.csp ret) (s.csp - 1)) (t := s)
    (show s.csp - 1 ≠ 255 by bv_omega) (show s.csp = s.csp - 1 + 1 by bv_omega)
    fun _ hk => (slotAt_setSlot_above s.cs ret hk).symm
  exact cons.trans (congrArg (· :: s.outstanding) (slotAt_setSlot_same _ _ _))

/-- A pop takes the list's first address away. -/
theorem outstanding_eq_cons_popped {s : State} (h : s.csp ≠ 255) :
    s.outstanding = slotAt s.cs (s.csp + 1) :: (s.setCallStack s.cs (s.csp + 1)).outstanding :=
  outstanding_eq_cons (t := s.setCallStack s.cs (s.csp + 1)) h rfl fun _ _ => rfl

/-- As many addresses as there are free slots can be pushed; they stand on the list before the older ones, the last one
first. -/
theorem pushAll_of_length_le {xs : List Addr} {s : State} (h : xs.length ≤ s.csp.toNat) :
    ∃ t, pushAll s xs = some t ∧ t.outstanding = xs.reverse ++ s.outstanding ∧
      t.csp.toNat + xs.length = s.csp.toNat := by
  induction xs generalizing s with
  | nil => exact ⟨s, rfl, rfl, rfl⟩
  | cons x xs ih =>
    rw [List.length_cons] at h
    have hc : s.csp ≠ 0 := by bv_omega
    have csp : (s.csp - 1).toNat + 1 = s.csp.toNat := by bv_omega
    obtain ⟨t, hpush, hlist, (hcsp : t.csp.toNat + xs.length = (s.csp - 1).toNat)⟩ :=
      ih (s := s.setCallStack (setSlot s.cs s.csp x) (s.csp - 1)) (show xs.length ≤ (s.csp - 1).toNat by omega)
    refine ⟨t, ?_, ?_, ?_⟩
    · rw [pushAll, push_of_csp_ne_zero hc]
      exact hpush
    · rw [hlist, outstanding_pushed hc, List.reverse_cons, List.append_assoc, List.singleton_append]
    · rw [List.length_cons]
      omega

/-- One address more meets the fatal push at `CSP = 0`. -/
theorem pushAll_of_lt_length {xs : List Addr} {s : State} (h : s.csp.toNat < xs.length) : pushAll s xs = none := by
  induction xs generalizing s with
  | nil => exact absurd h (Nat.not_lt_zero _)
  | cons x xs ih =>
    rw [List.length_cons] at h
    rcases push_cases x s with ⟨_, hp⟩ | ⟨hc, hp⟩ <;> rw [pushAll, hp]
    exact ih (show (s.csp - 1).toNat < xs.length by bv_omega)

/-- Pops answer the front of the list, one `CSP` further each. -/
theorem popAll_of_le {n : Nat} {s : State} (h : s.csp.toNat + n ≤ 255) :
    ∃ u, popAll s n = some (s.outstanding.take n, u) ∧ u.csp.toNat = s.csp.toNat + n := by
  induction n generalizing s with
  | zero => exact ⟨s, rfl, rfl⟩
  | succ n ih =>
    have hc : s.csp ≠ 255 := by bv_omega
    have csp : (s.csp + 1).toNat = s.csp.toNat + 1 := by bv_omega
    obtain ⟨u, hpop, (hcsp : u.csp.toNat = (s.csp + 1).toNat + n)⟩ :=
      ih (s := s.setCallStack s.cs (s.csp + 1)) (show (s.csp + 1).toNat + n ≤ 255 by omega)
    refine ⟨u, ?_, ?_⟩
    · rw [popAll, pop_of_csp_ne_empty hc, outstanding_eq_cons_popped hc, List.take_succ_cons]
      exact congrArg (Option.map fun r => (slotAt s.cs (s.csp + 1) :: r.1, r.2)) hpop
    · omega

/-- Settles O28: the pushes put the reversed sequence at the front of the list, and the pops answer that front. -/
theorem pushesThenPopsReverse : Obligations.PushesThenPopsReverse := by
  refine fun s xs => ⟨fun h => ?_, pushAll_of_lt_length⟩
  obtain ⟨t, hpush, hlist, ht⟩ := pushAll_of_length_le h
  have room : t.csp.toNat + xs.length ≤ 255 := ht ▸ Nat.le_of_lt_succ s.csp.isLt
  obtain ⟨u, hpop, hu⟩ := popAll_of_le room
  have front : t.outstanding.take xs.length = xs.reverse := by
    rw [hlist, List.take_left' List.length_reverse]
  exact ⟨t, u, hpush, front ▸ hpop, BitVec.eq_of_toNat_eq (hu.trans ht)⟩

/-! ## A return after a call -/

/-- Settles O32: of the ways a call can end, only the one that pushed and entered its target is left, and a return from any
state with that call stack takes back the address pushed. -/
theorem returnUndoesCall : Obligations.ReturnUndoesCall := by
  intro s t u lo hi hcall _ hrun htarget hcs hcsp
  have ordinary : ¬ (hiLo hi lo = s.cfg.trapOut ∨ hiLo hi lo = s.cfg.trapIn) := by simpa [isTrap] using htarget
  rcases execJsrAbs_next hcall with ⟨_, rfl⟩ | ⟨hc, _, rfl⟩ | ⟨_, ho, _⟩ | ⟨_, hin, _⟩ | ⟨_, hin, _⟩
  · cases hrun
  · exact popToPc_pushed hc hcsp hcs
  · exact absurd (.inl ho) ordinary
  · exact absurd (.inr hin) ordinary
  · exact absurd (.inr hin) ordinary

end Sys2Proof.Machine
end

section
/-! PROOFS. Host I/O (spec/47_host_io.md): what a trapped call transfers, that nothing else touches `OUT` or `IN`, and that the
byte at the trap address is not fetched. -/

namespace Sys2Proof.Machine

/-! ## A trapped call, case by case -/

section

variable {s : State} {lo hi : Byte}

/-- A call whose operand bytes pass the top stops there (spec/20_memory.md R63). -/
theorem execJsrAbs_of_noRoom (hroom : ¬ s.roomFor 2) : execJsrAbs lo hi s = .fault .pastTop :=
  (execJsrAbs_completes lo hi s).stops_iff.mpr hroom

/-- A call on a full stack overflows before its target is looked at (spec/60_exceptions.md R233). -/
theorem execJsrAbs_of_csp_zero (hroom : s.roomFor 2) (hcsp : s.csp = 0) :
    execJsrAbs lo hi s =
      .next { s with pc := s.pc + 2, run := false, fault := some .stackOverflow, phase := .halted } :=
  (Flow.andThen_of_ok (resolveOperands_ok hroom) _).trans (Flow.andThen_of_halt (if_pos hcsp) _)

/-- A call to the output trap appends `A` to `OUT` (R212). -/
theorem execJsrAbs_trapOut (hroom : s.roomFor 2) (hcsp : s.csp ≠ 0) (hout : hiLo hi lo = s.cfg.trapOut) :
    execJsrAbs lo hi s =
      .next { s.after 2 with output := s.output ++ [s.a], cs := setSlot s.cs s.csp (s.pc + 2) } := by
  rcases execJsrAbs_cases lo hi s with ⟨hn, _⟩ | ⟨_, hc, _⟩ | ⟨_, _, hn, _⟩ | ⟨_, _, _, e⟩ | ⟨_, _, hn, _⟩ | ⟨_, _, hn, _⟩
  · exact absurd hroom hn
  · exact absurd hc hcsp
  · simp [isTrap, hout] at hn
  · exact e
  · exact absurd hout hn
  · exact absurd hout hn

section

variable (hroom : s.roomFor 2) (hcsp : s.csp ≠ 0) (hin : hiLo hi lo = s.cfg.trapIn) (hne : s.cfg.trapIn ≠ s.cfg.trapOut)
include hroom hcsp hin hne

/-- A call to the input trap takes the first byte of `IN` into `A` (R213). -/
theorem execJsrAbs_trapIn_of_ready {b : Byte} {rest : List Byte} (hready : s.input = b :: rest) :
    execJsrAbs lo hi s = .next { s.after 2 with a := b, input := rest, cs := setSlot s.cs s.csp (s.pc + 2) } := by
  rcases execJsrAbs_trapIn hroom hcsp hin hne with ⟨hempty, _⟩ | ⟨_, _, hready', e⟩
  · cases hready.symm.trans hempty
  · cases hready.symm.trans hready'
    exact e

/-- A call to the input trap with no character ready waits at its opcode byte (R218). -/
theorem execJsrAbs_trapIn_of_empty (hempty : s.input = []) :
    execJsrAbs lo hi s = .next { s with pc := s.pc - 1, phase := .ioWait } := by
  rcases execJsrAbs_trapIn hroom hcsp hin hne with ⟨_, e⟩ | ⟨_, _, hready, _⟩
  · exact e
  · cases hempty.symm.trans hready

end

end

/-- Settles O41: the two cases of a trapped call that transfer a character. -/
theorem trappedCallTransfersOneCharacter : Obligations.TrappedCallTransfersOneCharacter :=
  fun _ _ _ hroom hcsp =>
    ⟨execJsrAbs_trapOut hroom hcsp, fun hin hne _ _ hready => execJsrAbs_trapIn_of_ready hroom hcsp hin hne hready⟩

/-! ## The host channels -/

/-- Settles O43: a return and an instruction without the call stack keep both channels, and of the ways a call can end only the
two that transfer a character change one. -/
theorem onlyTrappedCallsDoHostIo : Obligations.OnlyTrappedCallsDoHostIo := by
  intro i s t h
  rcases exec_next h with ⟨lo, hi, rfl, hj⟩ | ⟨_, hp⟩ | ⟨_, e⟩
  · rcases execJsrAbs_next hj with ⟨_, rfl⟩ | ⟨_, _, rfl⟩ | ⟨_, ho, rfl⟩ | ⟨_, hin, b, rest, hready, rfl⟩ | ⟨_, _, _, rfl⟩
    · exact .inl ⟨rfl, rfl⟩
    · exact .inl ⟨rfl, rfl⟩
    · exact .inr (.inl ⟨congrArg some ho, rfl, rfl⟩)
    · exact .inr (.inr ⟨congrArg some hin, rfl, hready⟩)
    · exact .inl ⟨rfl, rfl⟩
  · rcases popToPc_next hp with ⟨_, rfl⟩ | ⟨_, rfl⟩
    · exact .inl ⟨rfl, rfl⟩
    · exact .inl ⟨rfl, rfl⟩
  · rw [e]
    exact .inl ⟨rfl, rfl⟩

/-- From `s` to `t`, `OUT` has only grown at its end and `IN` has only been consumed from its front (R219). -/
def ChannelsAdvance (s t : State) : Prop := s.output <+: t.output ∧ t.input <:+ s.input

theorem channelsAdvance_of_eq {s t : State} (hout : t.output = s.output) (hin : t.input = s.input) :
    ChannelsAdvance s t :=
  ⟨hout ▸ List.prefix_rfl, hin ▸ List.suffix_rfl⟩

theorem ChannelsAdvance.trans {s t u : State} (h : ChannelsAdvance s t) (h' : ChannelsAdvance t u) :
    ChannelsAdvance s u := by
  obtain ⟨hout, hin⟩ := h
  obtain ⟨hout', hin'⟩ := h'
  exact ⟨hout.trans hout', hin'.trans hin⟩

theorem exec_channelsAdvance {i : Instr} {s t : State} (h : exec i s = .next t) : ChannelsAdvance s t := by
  rcases onlyTrappedCallsDoHostIo i s t h with ⟨hout, hin⟩ | ⟨_, hout, hin⟩ | ⟨_, hout, hin⟩
  · exact channelsAdvance_of_eq hout hin
  · exact ⟨hout ▸ List.prefix_append _ _, hin ▸ List.suffix_rfl⟩
  · exact ⟨hout ▸ List.prefix_rfl, hin ▸ List.suffix_cons _ _⟩

theorem step_channelsAdvance {s t : State} (h : step s = .next t) : ChannelsAdvance s t := by
  obtain ⟨_, _, ⟨_, rfl⟩ | ⟨i, _, _, he⟩⟩ := step_next h
  · exact channelsAdvance_of_eq rfl rfl
  · exact exec_channelsAdvance (s := s.entered) he

/-- Settles O44: every step of a run advances the channels further from the state the run began in. -/
theorem outputIsNeverWithdrawn : Obligations.OutputIsNeverWithdrawn :=
  fun k s t => run_keeps Sys2Proof.core (P := ChannelsAdvance s) (fun _ _ hs h => hs.trans (step_channelsAdvance h)) k s t
    (channelsAdvance_of_eq rfl rfl)

/-! ## The byte at the trap address -/

/-- A write outside the three bytes at `PC` leaves what the next step decodes. -/
theorem bytesAtPc_memWrite {s : State} {ea : Addr} (v : Byte) (h0 : ea ≠ s.pc) (h1 : ea ≠ s.pc + 1)
    (h2 : ea ≠ s.pc + 2) : (s.memWrite ea v).bytesAtPc = s.bytesAtPc := by
  have past : s.pc + 1 + 1 = s.pc + 2 := BitVec.add_assoc s.pc 1 1
  simp only [State.bytesAtPc, State.memWrite_pc, past]
  rw [memRead_memWrite_other s v h0.symm, memRead_memWrite_other s v h1.symm, memRead_memWrite_other s v h2.symm]

/-- The execute phase of a trapped call carries a change of memory along, whichever way the call ends: it reads and writes no
byte (R216). -/
theorem execJsrAbs_memWrite_of_isTrap {s : State} {lo hi : Byte} (ht : isTrap s.cfg (hiLo hi lo) = true) (ea : Addr)
    (v : Byte) : execJsrAbs lo hi (s.memWrite ea v) = mapNext (fun t => t.memWrite ea v) (execJsrAbs lo hi s) := by
  by_cases hroom : s.roomFor 2
  swap
  · rw [execJsrAbs_of_noRoom hroom, execJsrAbs_of_noRoom (s := s.memWrite ea v) hroom]
    rfl
  by_cases hcsp : s.csp = 0
  · rw [execJsrAbs_of_csp_zero hroom hcsp, execJsrAbs_of_csp_zero (s := s.memWrite ea v) hroom hcsp]
    rfl
  by_cases hout : hiLo hi lo = s.cfg.trapOut
  · rw [execJsrAbs_trapOut hroom hcsp hout, execJsrAbs_trapOut (s := s.memWrite ea v) hroom hcsp hout]
    rfl
  have hin : hiLo hi lo = s.cfg.trapIn := by simpa [isTrap, hout] using ht
  have hne : s.cfg.trapIn ≠ s.cfg.trapOut := hin ▸ hout
  cases hinput : s.input with
  | nil =>
    rw [execJsrAbs_trapIn_of_empty hroom hcsp hin hne hinput,
      execJsrAbs_trapIn_of_empty (s := s.memWrite ea v) hroom hcsp hin hne hinput]
    rfl
  | cons b rest =>
    rw [execJsrAbs_trapIn_of_ready hroom hcsp hin hne hinput,
      execJsrAbs_trapIn_of_ready (s := s.memWrite ea v) hroom hcsp hin hne hinput]
    rfl

/-- Settles O45: the call is decoded from bytes the write leaves, and its execute phase carries the written byte along; a core
that is halted or has no room for the fetch increment stops alike. -/
theorem trapAddressByteIsNotFetched : Obligations.TrapAddressByteIsNotFetched := by
  intro s lo hi v rest hd ht h0 h1 h2
  cases hr : s.run with
  | false =>
    rw [step_of_halted hr, step_of_halted (s := s.memWrite (hiLo hi lo) v) hr]
    rfl
  | true =>
    by_cases hroom : s.roomFor 1
    · have hd' : decodeWith (s.memWrite (hiLo hi lo) v).cfg.opcodes (s.memWrite (hiLo hi lo) v).bytesAtPc =
          .ok (.jsrAbs lo hi, rest) := by
        rw [bytesAtPc_memWrite v h0 h1 h2]
        exact hd
      rw [step_of_decode hr hroom hd, step_of_decode (s := s.memWrite (hiLo hi lo) v) hr hroom hd']
      exact execJsrAbs_memWrite_of_isTrap (s := s.entered) ht (hiLo hi lo) v
    · rw [step_of_noRoom hr hroom, step_of_noRoom (s := s.memWrite (hiLo hi lo) v) hr hroom]
      rfl

end Sys2Proof.Machine
end

section
/-! PROOFS. Fatal conditions (spec/60_exceptions.md): what can halt a running core, and the state at each halt. -/

namespace Sys2Proof.Machine

/-- An execute phase halts a running core by a call on a full stack or by a return on an empty one, with the state of the raise
(R233, R234); every other way to complete keeps the run latch. -/
theorem exec_next_halted {i : Instr} {s t : State} (hr : s.run = true) (h : exec i s = .next t) (hn : t.run = false) :
    (∃ lo hi, i = .jsrAbs lo hi ∧ s.csp = 0 ∧ t = raise .stackOverflow (s.setPc (s.pc + 2))) ∨
    (i = .rts ∧ s.csp = 255 ∧ t = raise .stackUnderflow s) := by
  have halts : t.run ≠ s.run := by simp [hr, hn]
  rcases exec_next h with ⟨lo, hi, e, hj⟩ | ⟨e, hp⟩ | ⟨_, ht⟩
  · rcases execJsrAbs_next hj with ⟨hc, ht⟩ | ⟨_, _, ht⟩ | ⟨_, _, ht⟩ | ⟨_, _, _, _, _, ht⟩ | ⟨_, _, _, ht⟩
    · exact .inl ⟨lo, hi, e, hc, ht⟩
    all_goals exact absurd (congrArg State.run ht) halts
  · rcases popToPc_next hp with ⟨hc, ht⟩ | ⟨_, ht⟩
    · exact .inr ⟨e, hc, ht⟩
    · exact absurd (congrArg State.run ht) halts
  · exact absurd (congrArg State.run ht) halts

/-- Settles O48: a step that halts does so in Decode, on a byte in no row, or in the execute phase, which began at pc0 + 1. -/
theorem fatalConditionsHaveTheirCauses : Obligations.FatalConditionsHaveTheirCauses := by
  intro s t hr h hn
  obtain ⟨_, _, ⟨hl, rfl⟩ | ⟨i, rest, hd, he⟩⟩ := step_next h
  · exact .inl ⟨hl, rfl, rfl⟩
  · rcases exec_next_halted (s := s.entered) hr he hn with ⟨lo, hi, rfl, hc, rfl⟩ | ⟨rfl, hc, rfl⟩
    · exact .inr (.inl ⟨lo, hi, rest, hd, hc, rfl, BitVec.add_assoc s.pc 1 2⟩)
    · exact .inr (.inr ⟨rest, hd, hc, rfl, rfl⟩)

/-- Settles O30: the push fails before the target is compared with the trap addresses. -/
theorem callOnFullStackOverflows : Obligations.CallOnFullStackOverflows :=
  fun _ _ _ hroom hcsp => execJsrAbs_of_csp_zero hroom hcsp

/-- Settles O46: of the cases of a step with room for the fetch increment, only Decode's raise is left. -/
theorem unknownOpcodeHaltsPastTheByte : Obligations.UnknownOpcodeHaltsPastTheByte :=
  fun _ hr hroom hl => step_of_lookup_none hr hroom hl

end Sys2Proof.Machine
end

section
/-! PROOFS. The reset input (spec/70_reset_and_hazards.md section 1) and an instruction the host lays at `PC` (section 2). -/

namespace Sys2Proof.Machine

/-! ## The reset input -/

/-- Settles O2: `resetInput` writes the reset values over whatever state it is given and names no other field. -/
theorem resetInputGivesResetValuesAndKeepsMemory : Obligations.ResetInputGivesResetValuesAndKeepsMemory :=
  fun _ => ⟨rfl, rfl, rfl, rfl, rfl, rfl, rfl, rfl, rfl, rfl, rfl, rfl, rfl, rfl, rfl⟩

/-! ## An instruction laid at `PC` -/

/-- `decodeTableWord` answers an instruction exactly where the table of R74 decodes the word's bytes to it. -/
theorem decodeTableWord_eq_some_iff {nbits w : Nat} {i : Instr} :
    decodeTableWord nbits w = some i ↔ ∃ rest, decodeWith opcodeTable (wordBytes nbits w) = .ok (i, rest) := by
  unfold decodeTableWord decode
  cases decodeWith opcodeTable (wordBytes nbits w) with
  | error _ => simp
  | ok r => simp [Prod.ext_iff]

/-- Placing a word is three byte writes from `PC` on, after the core is made ready. -/
theorem withFetchWord_eq_memWrite (s : State) (nbits w : Nat) : s.withFetchWord nbits w =
    (((makeReady s).memWrite s.pc (wordByte nbits w 0)).memWrite (s.pc + 1) (wordByte nbits w 1)).memWrite
      (s.pc + 1 + 1) (wordByte nbits w 2) := rfl

/-- `PC` and the two addresses after it differ, also where they wrap. -/
theorem addr_succ_ne (pc : Addr) : pc ≠ pc + 1 ∧ pc ≠ pc + 1 + 1 ∧ pc + 1 ≠ pc + 1 + 1 := by
  refine ⟨?_, ?_, ?_⟩ <;> bv_omega

/-- The placed word's bytes are the ones the next step decodes. -/
theorem bytesAtPc_withFetchWord (s : State) (nbits w : Nat) :
    (s.withFetchWord nbits w).bytesAtPc = wordBytes nbits w := by
  obtain ⟨h01, h02, h12⟩ := addr_succ_ne s.pc
  have hpc : (s.withFetchWord nbits w).pc = s.pc := rfl
  rw [State.bytesAtPc, hpc, withFetchWord_eq_memWrite, memRead_memWrite_same, memRead_memWrite_other _ _ h12,
    memRead_memWrite_same, memRead_memWrite_other _ _ h02, memRead_memWrite_other _ _ h01, memRead_memWrite_same]
  rfl

/-- A byte outside the three at `PC` reads as before the word was placed. -/
theorem memRead_withFetchWord_other {s : State} {b : Addr} (nbits w : Nat) (h0 : b ≠ s.pc) (h1 : b ≠ s.pc + 1)
    (h2 : b ≠ s.pc + 2) : (s.withFetchWord nbits w).memRead b = s.memRead b := by
  have h2' : b ≠ s.pc + 1 + 1 := by rwa [show s.pc + 1 + 1 = s.pc + 2 from BitVec.add_assoc s.pc 1 1]
  rw [withFetchWord_eq_memWrite, memRead_memWrite_other _ _ h2', memRead_memWrite_other _ _ h1,
    memRead_memWrite_other _ _ h0]
  rfl

/-- Settles O12: the placed core runs, has `s`'s room, and finds the word's bytes at `PC`; the writes and `makeReady` touch
nothing else. -/
theorem placedWordRunsNext : Obligations.PlacedWordRunsNext := by
  intro s nbits w i ht hroom hw
  obtain ⟨rest, hd⟩ := decodeTableWord_eq_some_iff.mp hw
  have hcfg : (s.withFetchWord nbits w).cfg = s.cfg := rfl
  refine ⟨step_of_decode (rest := rest) rfl hroom ?_, fun _ => memRead_withFetchWord_other nbits w, rfl⟩
  rw [hcfg, ht, bytesAtPc_withFetchWord, hd]

end Sys2Proof.Machine
end

section
/-! PROOFS. Increments, add and compare (spec/43_arith.md), and the register transfers (spec/46_transfer.md). -/

namespace Sys2Proof.Machine

/-! ## Instructions without operand bytes -/

/-- The end of an instruction is the state after no operand byte. -/
theorem complete_eq_after_zero (s : State) : complete s = .next (s.after 0) := by
  rw [complete_eq, State.after, BitVec.add_zero]

/-- Settles O37: each transfer completes after one register write. -/
theorem transfersCopyOneRegister : Obligations.TransfersCopyOneRegister := fun s =>
  ⟨complete_eq_after_zero (s.setX s.a), complete_eq_after_zero (s.setY s.a), complete_eq_after_zero (s.setA s.x),
    complete_eq_after_zero (s.setA s.y), complete_eq_after_zero (s.setX s.sp), complete_eq_after_zero (s.setSp s.x)⟩

/-! ## Sums modulo 256 -/

/-- `ADD` is the sum modulo 256 (spec/41_dispatcher.md R120). -/
theorem ofNat_mod_eq_aluAdd (a b : Byte) : BitVec.ofNat 8 ((a.toNat + b.toNat) % 256) = aluAdd a b :=
  BitVec.eq_of_toNat_eq (by simp [aluAdd])

/-- `INC` is the sum with one. -/
theorem ofNat_mod_eq_aluInc (v : Byte) : BitVec.ofNat 8 ((v.toNat + 1) % 256) = aluInc v :=
  ofNat_mod_eq_aluAdd v 1

/-- With room for its operand, `INC zp` writes back the byte it read plus one (R162). -/
theorem execIncZp_of_roomFor {s : State} (h : s.roomFor 1) (zp8 : Byte) :
    execIncZp zp8 s = .next ((s.after 1).memWrite (zext16 zp8) (aluInc (s.memRead (zext16 zp8)))) :=
  ((execIncZp_cases zp8 s).resolve_right fun ⟨hn, _⟩ => hn h).2

/-- Settles O19: the numbers are the ALU's `INC` and `ADD`, and each instruction writes that one result. -/
theorem incrementsAndAddWrap : Obligations.IncrementsAndAddWrap := by
  intro s b
  simp only [ofNat_mod_eq_aluInc, ofNat_mod_eq_aluAdd]
  refine ⟨complete_eq_after_zero (s.setX (aluInc s.x)), complete_eq_after_zero (s.setY (aluInc s.y)), fun hroom => ?_⟩
  exact ⟨execIncZp_of_roomFor hroom b, withImmediate_of_roomFor hroom b fun v t => t.setA (aluAdd t.a v)⟩

/-! ## The compare -/

/-- `P.Z <- z` is read back as `z`. -/
theorem zeroFlag_setZero (p : Byte) (z : Bool) : zeroFlag (setZero p z) = z := setZero_getLsbD_zero p z

/-- Settles O20: the new `P` is the old one with `P.Z` set to whether the bytes are equal, which leaves the bits above it,
Carry among them. -/
theorem compareWritesZeroAlone : Obligations.CompareWritesZeroAlone := by
  intro s m hroom
  have keeps (k : Nat) (hk : 1 ≤ k) : (setZero s.p (aluEq s.a m)).getLsbD k = s.p.getLsbD k := setZero_getLsbD _ _ hk
  refine ⟨setZero s.p (aluEq s.a m), ?completes, ?zero, keeps cBit (le_refl 1), keeps⟩
  case completes => exact withImmediate_of_roomFor hroom m fun v t => t.setP (setZero t.p (aluEq t.a v))
  case zero => rw [zeroFlag_setZero, aluEq, beq_iff_eq]

end Sys2Proof.Machine
end

section
/-! PROOFS. The jump, the call to an ordinary target and the return (spec/44_branch_jump.md section 2, spec/45_call_return.md). -/

namespace Sys2Proof.Machine

/-- With room for its operand, `JMP abs` goes to it (R175). -/
theorem execJmpAbs_of_roomFor {s : State} (h : s.roomFor 2) (lo hi : Byte) :
    execJmpAbs lo hi s = .next { s.after 2 with pc := hiLo hi lo } :=
  ((execJmpAbs_cases lo hi s).resolve_right fun ⟨hn, _⟩ => hn h).2

/-- Settles O25: the number is the address the two operand bytes form. -/
theorem jumpGoesToItsOperand : Obligations.JumpGoesToItsOperand := by
  intro s lo hi hroom
  rw [ofNat_toNat_eq_hiLo]
  exact execJmpAbs_of_roomFor hroom lo hi

/-- An ordinary call target is neither trap address (spec/47_host_io.md R211). -/
theorem isTrap_eq_false_iff {c : Config} {target : Addr} :
    isTrap c target = false ↔ target ≠ c.trapOut ∧ target ≠ c.trapIn := by
  simp [isTrap]

/-- Settles O29: of the ways a call can end, room, a free slot and an ordinary target leave the one that enters the target. -/
theorem callPushesNextInstructionAddress : Obligations.CallPushesNextInstructionAddress := by
  intro s lo hi hroom hcsp htarget
  obtain ⟨hout, hin⟩ := isTrap_eq_false_iff.mp htarget
  rcases execJsrAbs_cases lo hi s with ⟨hn, _⟩ | ⟨_, hc, _⟩ | ⟨_, _, _, enters⟩ | ⟨_, _, ho, _⟩ | ⟨_, _, _, hi', _⟩ |
    ⟨_, _, _, hi', _⟩
  · exact absurd hroom hn
  · exact absurd hc hcsp
  · exact enters
  · exact absurd ho hout
  · exact absurd hi' hin
  · exact absurd hi' hin

/-- Settles O31: a return underflows on an empty stack and goes to the popped address on any other. -/
theorem returnUsesPoppedAddress : Obligations.ReturnUsesPoppedAddress := by
  intro s
  rcases popToPc_cases s with ⟨hempty, underflows⟩ | ⟨hne, returns⟩
  · exact ⟨fun h => absurd hempty h, fun _ => underflows⟩
  · exact ⟨fun _ => returns, fun h => absurd h hne⟩

end Sys2Proof.Machine
end
